-- ==== Sys2Proof/Word.lean ====
section
/-! DEFINITION. The widths of the values the block's ports carry, named as the specification names them
(00_scope.md sections 6 and 7, 10_state.md rules R6 to R9). -/

namespace Sys2Proof

/-- A byte: a μ-law byte (R28), or one byte of a header frame or of a host buffer (R17). -/
abbrev Byte := BitVec 8

/-- The 16-bit two's-complement pattern of a linear sample (R29). -/
abbrev Sample := BitVec 16

/-- A 32-bit unsigned quantity: a payload byte count (R8), a sample rate (R4), a 32-bit header field (R21). -/
abbrev Word32 := BitVec 32

/-- A 16-bit header field (R21). -/
abbrev Word16 := BitVec 16

/-- The wrapper's command input `cmd[33:0]`, that is `op[1:0]` above `arg[31:0]` (R9, R33). -/
abbrev CmdWord := BitVec 34

/-- The header frame: 46 bytes, indexed by byte offset 0 to 45 (R8, R17 space 1, R30, R31). -/
abbrev Frame := Vector Byte 46

/-- `trunc_16(v)` of 00_scope.md section 6, on a non-negative integer. -/
def trunc16 (v : Nat) : Word16 := BitVec.ofNat 16 v

/-- `trunc_32(v)` of 00_scope.md section 6, on a non-negative integer. -/
def trunc32 (v : Nat) : Word32 := BitVec.ofNat 32 v

end Sys2Proof
end

