-- ==== Sys2Proof/Config.lean ====
section
/-! DEFINITION. The constants of 00_scope.md rule R3 and the default of the one configuration parameter (rule R4).
The parameter `PCM_SAMPLE_RATE` itself is a field of State that no step writes (assumption log 1), so that a statement
about every state is a statement about every value of it. The specification leaves no value free: no operation has an
undefined result (rules R35, R66). -/

namespace Sys2Proof.Config

/-- `BIAS` (R3): added by ENCODE, subtracted by DECODE. -/
abbrev bias : Nat := 132

/-- `CLIP` (R3): the largest magnitude ENCODE lets through the clamp. -/
abbrev clip : Nat := 32635

/-- `SCAN_START` (R3): the first mask of ENCODE's exponent scan. -/
abbrev scanStart : Nat := 0x4000

/-- `HDR_LEN` (R3, R31): the bytes of a header frame. -/
abbrev hdrLen : Nat := 46

/-- `VENDOR_HDR_LEN` (R3): the bytes of the vendor's opaque prefix. -/
abbrev vendorHdrLen : Nat := 46

/-- `RIFF_OVERHEAD` (R3): `HDR_LEN - 8`. -/
abbrev riffOverhead : Nat := 38

/-- `FMT_SIZE` (R3, R36). -/
abbrev fmtSize : Word32 := 18

/-- `FMT_MULAW` (R3): format code of the G.711 variant. -/
abbrev fmtMulaw : Word16 := 7

/-- `FMT_PCM` (R3): format code of the linear-PCM variant. -/
abbrev fmtPcm : Word16 := 1

/-- `CHANNELS` (R3, R36). -/
abbrev channels : Word16 := 1

/-- `G711_RATE` (R3). -/
abbrev g711Rate : Word32 := 8000

/-- `G711_BLOCK_ALIGN` (R3). -/
abbrev g711BlockAlign : Word16 := 1

/-- `G711_BITS` (R3). -/
abbrev g711Bits : Word16 := 8

/-- Block align of the linear-PCM variant (R32, decision D7; assumption log 7). -/
abbrev pcmBlockAlign : Word16 := 2

/-- `PCM_BITS` (R3). -/
abbrev pcmBits : Word16 := 16

/-- `EXT_SIZE` (R3, R36). -/
abbrev extSize : Word16 := 0

/-- The default of the parameter `PCM_SAMPLE_RATE` (R4, decision D6). -/
abbrev pcmSampleRateDefault : Word32 := 8000

/-- The default of the host procedure PCM_TO_G711's `downsampleFactor` (R61). -/
abbrev downsampleFactorDefault : Nat := 2

/-- The largest payload count whose `chunkSize` does not wrap (R55, R81). -/
abbrev maxPayload : Nat := 0xFFFFFFD9

end Sys2Proof.Config
end

