-- ==== Sys2Proof/Syntax.lean ====
section
/-! DEFINITION. The syntax: the four operations (30_encoding.md rule R33, one constructor per row of opcode_table.json),
the written form of an operation (rule R37), and the three pseudo-operations of the host (rule R38). -/

namespace Sys2Proof

/-- The block's operations with their operands at the widths of R34. Every term is an operation the block performs:
no operand value is illegal or reserved (R35). -/
inductive Instr where
  /-- `DECODE b`: μ-law byte, wire form, to linear sample (R39). -/
  | decode (b : Byte)
  /-- `ENCODE x`: linear sample to μ-law byte, wire form (R44). -/
  | encode (x : Sample)
  /-- `HDR_PCM n`: the linear-PCM header frame for `n` payload bytes (R53). -/
  | hdrPcm (n : Word32)
  /-- `HDR_G711 n`: the G.711 header frame for `n` payload bytes (R52). -/
  | hdrG711 (n : Word32)
  deriving DecidableEq, Repr

/-- The three units of the block (R1). -/
inductive HwUnit where
  | mulawDecoder
  | mulawEncoder
  | wavHeaderMarshal
  deriving DecidableEq, Repr

/-- The unit that performs an operation (R33, column "unit"). -/
def Instr.unit : Instr → HwUnit
  | .decode _ => .mulawDecoder
  | .encode _ => .mulawEncoder
  | .hdrPcm _ => .wavHeaderMarshal
  | .hdrG711 _ => .wavHeaderMarshal

/-- The operation names of R33 and opcode_table.json. -/
inductive Mnemonic where
  | decode
  | encode
  | hdrPcm
  | hdrG711
  deriving DecidableEq, Repr

/-- The name of an operation (R33). -/
def Instr.mnemonic : Instr → Mnemonic
  | .decode _ => .decode
  | .encode _ => .encode
  | .hdrPcm _ => .hdrPcm
  | .hdrG711 _ => .hdrG711

/-- How an operand is written (R37): a decimal, or `0x` and a number of hexadecimal digits. -/
inductive Numeral where
  | decimal (v : Int)
  | hex (digits v : Nat)
  deriving DecidableEq, Repr

/-- One line `MNEMONIC operand` of R37. A line, unlike an `Instr`, can be ill-formed: see WellFormed.lean. -/
structure SourceLine where
  mnemonic : Mnemonic
  operand : Numeral
  deriving DecidableEq, Repr

/-- The pseudo-operations of R38: procedures the host performs, not commands of the block. -/
inductive HostCall where
  /-- `STRIP buf` (R59). -/
  | strip (buf : List Byte)
  /-- `G711_TO_PCM buf` (R60). -/
  | g711ToPcm (buf : List Byte)
  /-- `PCM_TO_G711 buf, F` (R61). -/
  | pcmToG711 (buf : List Byte) (factor : Nat)
  deriving DecidableEq, Repr

end Sys2Proof
end

