-- ==== Sys2Proof/WellFormed.lean ====
section
/-! DEFINITION. Which written lines are operations (30_encoding.md rule R37). An `Instr` needs no check: its operands have
the widths of rule R34 and every value of each is legal (rule R35), so that well-formedness is a question about written
lines only. -/

namespace Sys2Proof

/-- The operand of DECODE is a byte written `0xHH` (R37). -/
def wellFormedByte : Numeral → Bool
  | .hex digits v => digits == 2 && decide (v < 256)
  | .decimal _ => false

/-- The operand of ENCODE is a signed decimal in −32768 to 32767 or a pattern `0xHHHH` (R37). -/
def wellFormedSample : Numeral → Bool
  | .hex digits v => digits == 4 && decide (v < 65536)
  | .decimal v => decide (-32768 ≤ v) && decide (v ≤ 32767)

/-- The operand of HDR_PCM and HDR_G711 is an unsigned decimal or `0xHHHHHHHH` (R37), of 32 bits (R34). -/
def wellFormedCount : Numeral → Bool
  | .hex digits v => digits == 8 && decide (v < 4294967296)
  | .decimal v => decide (0 ≤ v) && decide (v < 4294967296)

/-- A line of R37 names an operation. -/
def SourceLine.wellFormed (l : SourceLine) : Bool :=
  match l.mnemonic with
  | .decode => wellFormedByte l.operand
  | .encode => wellFormedSample l.operand
  | .hdrPcm => wellFormedCount l.operand
  | .hdrG711 => wellFormedCount l.operand

end Sys2Proof
end

