-- ==== Sys2Proof/Decode.lean ====
section
/-! DEFINITION. The command word (30_encoding.md rules R33, R34, R35): decoding, encoding and the opcode table, and the
assembly of a written line (rule R37). The block fetches nothing and its command word is one 34-bit vector on a port
(10_state.md rules R9, R11), so it has no byte order; a number that is no 34-bit pattern is rejected by name. -/

namespace Sys2Proof

/-- `op = cmd[33:32]` (R33). -/
def opField (c : CmdWord) : BitVec 2 := c.extractLsb' 32 2

/-- `arg = cmd[31:0]` (R9). -/
def argField (c : CmdWord) : Word32 := c.extractLsb' 0 32

/-- DECODE's operand `arg[7:0]`; `arg[31:8]` is ignored (R34). -/
def byteOperand (arg : Word32) : Byte := arg.extractLsb' 0 8

/-- ENCODE's operand `arg[15:0]`; `arg[31:16]` is ignored (R34). -/
def sampleOperand (arg : Word32) : Sample := arg.extractLsb' 0 16

/-- The operand of HDR_PCM and HDR_G711: all of `arg`, unsigned (R34). -/
def countOperand (arg : Word32) : Word32 := arg

/-- The operation of a command word (R33). Total: all four values of `op` are operations (R35). -/
def decode (c : CmdWord) : Instr :=
  if opField c = 0b00 then .decode (byteOperand (argField c))
  else if opField c = 0b01 then .encode (sampleOperand (argField c))
  else if opField c = 0b10 then .hdrPcm (countOperand (argField c))
  else .hdrG711 (countOperand (argField c))

/-- Why a number is no command word. -/
inductive DecodeError where
  /-- The number has a bit above bit 33, so it is no value of the 34-bit port `cmd` (R9). -/
  | widerThanCmd (w : Nat)
  deriving DecidableEq, Repr

/-- The operation of a number presented as a command word. -/
def decodeNat (w : Nat) : Except DecodeError Instr :=
  if w < 2 ^ 34 then .ok (decode (BitVec.ofNat 34 w)) else .error (.widerThanCmd w)

/-- The host's view of the decoder: bit 0 of `w` is bit 0 of the command word, bits from `nbits` up are 0. -/
def decodeTableWord (nbits w : Nat) : Option Instr :=
  match decodeNat (w % 2 ^ nbits) with
  | .ok i => some i
  | .error _ => none

/-- The `op` code of an operation (R33). -/
def Instr.op : Instr → BitVec 2
  | .decode _ => 0b00
  | .encode _ => 0b01
  | .hdrPcm _ => 0b10
  | .hdrG711 _ => 0b11

/-- The operand placed in `arg`, the ignored bits 0 (R34). -/
def Instr.arg : Instr → Word32
  | .decode b => BitVec.setWidth 32 b
  | .encode x => BitVec.setWidth 32 x
  | .hdrPcm n => n
  | .hdrG711 n => n

/-- The command word of an operation, `op` above `arg`, its ignored bits 0 (R33). -/
def encode (i : Instr) : CmdWord := i.op ++ i.arg

/-- The bits of a command word that are not ignored: `op`, and the operand's bits (R33's `z` columns, R34). -/
def significantMask : Mnemonic → CmdWord
  | .decode => 0x3000000FF
  | .encode => 0x30000FFFF
  | .hdrPcm => 0x3FFFFFFFF
  | .hdrG711 => 0x3FFFFFFFF

/-- One row of the opcode table (R33, opcode_table.json). -/
structure OpcodeRow where
  mnemonic : Mnemonic
  mask : CmdWord
  pattern : CmdWord
  deriving DecidableEq, Repr

/-- The opcode table of R33, match and mask as it prints them. -/
def opcodeTable : List OpcodeRow :=
  [ ⟨.decode, 0x300000000, 0x000000000⟩,
    ⟨.encode, 0x300000000, 0x100000000⟩,
    ⟨.hdrPcm, 0x300000000, 0x200000000⟩,
    ⟨.hdrG711, 0x300000000, 0x300000000⟩ ]

/-- A command word is one of the row's words. -/
def OpcodeRow.matchesWord (r : OpcodeRow) (c : CmdWord) : Bool := c &&& r.mask == r.pattern

/-- The integer an operand's written form denotes (R37). -/
def Numeral.value : Numeral → Int
  | .decimal v => v
  | .hex _ v => (v : Int)

/-- The operation a well-formed line names (R37); `ENCODE -1` and `ENCODE 0xFFFF` are the same one. -/
def assemble (l : SourceLine) : Option Instr :=
  if l.wellFormed then
    match l.mnemonic with
    | .decode => some (.decode (BitVec.ofInt 8 l.operand.value))
    | .encode => some (.encode (BitVec.ofInt 16 l.operand.value))
    | .hdrPcm => some (.hdrPcm (BitVec.ofInt 32 l.operand.value))
    | .hdrG711 => some (.hdrG711 (BitVec.ofInt 32 l.operand.value))
  else none

/-- A line that names an operation: a byte in hexadecimal, a sample or a count in decimal (R37). -/
def disassemble : Instr → SourceLine
  | .decode b => ⟨.decode, .hex 2 b.toNat⟩
  | .encode x => ⟨.encode, .decimal x.toInt⟩
  | .hdrPcm n => ⟨.hdrPcm, .decimal (n.toNat : Int)⟩
  | .hdrG711 n => ⟨.hdrG711, .decimal (n.toNat : Int)⟩

end Sys2Proof
end

