-- ==== Sys2Proof/Machine/State.lean ====
section
/-! DEFINITION. What a result is, the state of the model and the reasons a run can stop.
10_state.md rule R5: the block has no architectural state; "a model's machine state is therefore the unit type (or holds
only what the model itself adds, such as a transaction log)". State holds the configuration parameter of rules R4 and
R13, and two things the model adds: the commands the host has still to present and the transactions it has observed
(rule R9). -/

namespace Sys2Proof.Machine

/-- The result of an operation (R9, R33): 16 bits for DECODE, 8 bits for ENCODE, 46 bytes for HDR_PCM and HDR_G711. -/
inductive Result where
  | sample (v : Sample)
  | byte (b : Byte)
  | frame (f : Frame)
  deriving DecidableEq, Repr

/-- A transaction (R9): one command and the observation of its result. -/
structure Transaction where
  command : Instr
  result : Result
  deriving DecidableEq, Repr

/-- The state of the model. No field is a register of the block, which has none (R5, R10 to R13). -/
structure State where
  /-- `PCM_SAMPLE_RATE` (R4, R13): fixed at instantiation, never written (assumption log 1). -/
  pcmSampleRate : Word32
  /-- The model's own: the command words the host has still to present, the next one first (assumption log 2). -/
  commands : List CmdWord
  /-- The model's own: the transactions so far, oldest first (R5's "transaction log"; assumption log 2). -/
  log : List Transaction
  deriving DecidableEq, Repr

/-- Why a call ends in a failure. No operation of the block raises one (R66); the step never answers one. -/
inductive Fault where
  /-- `TruncatedInputError(info)` (R67): raised by STRIP, and by G711_TO_PCM through STRIP, on a buffer shorter than 46
  bytes; `info` is the buffer's length (decision D15). Safe: it is the specification's own failure. -/
  | truncatedInputError (info : Nat)
  deriving DecidableEq, Repr

/-- Why the model gives no answer. No operation of the block ends in one. -/
inductive Refusal where
  /-- Raised by no arm of exec: every operation has its meaning. Safe. -/
  | notModelled (mnemonic : String)
  /-- Raised by PCM_TO_G711 for `downsampleFactor` 0, which is no legal argument (R61, decision D13). Safe. -/
  | zeroDownsampleFactor
  /-- Raised by G711_TO_PCM and PCM_TO_G711 when the payload count does not fit the 32-bit operand of the header
  operation, where the specification makes the bound the host's duty (R60, R81, decision D19; assumption log 10).
  Safe. -/
  | payloadCountTooLarge (count : Nat)
  /-- Raised by a step of an instance that the model's list of instances does not hold (assumption log 17). Safe. -/
  | noSuchInstance (k : Nat)
  deriving DecidableEq, Repr

/-- An instance built with a given `PCM_SAMPLE_RATE`, before any command (R4, R13, R14). -/
def State.powerUp (rate : Word32) : State :=
  { pcmSampleRate := rate, commands := [], log := [] }

/-- The machine right after reset: the instance built with the default rate (R4, R14), nothing presented, nothing
observed. -/
def State.reset : State := State.powerUp Config.pcmSampleRateDefault

end Sys2Proof.Machine
end

