-- ==== Sys2Proof/Machine/Operands.lean ====
section
/-! DEFINITION. The data formats of 30_encoding.md: the two forms of a μ-law byte (rule R28), the linear sample (rule
R29), and the byte sequences of 20_memory.md (rules R18, R19). -/

namespace Sys2Proof.Machine

/-- The fields of a μ-law byte, which are defined on its field form (R28). -/
structure MuFields where
  /-- Bit 7: true for a sample `−magnitude`. -/
  sign : Bool
  /-- Bits 6 to 4: the segment number. -/
  exponent : BitVec 3
  /-- Bits 3 to 0: the step within the segment. -/
  mantissa : BitVec 4
  deriving DecidableEq, Repr

/-- `{sign, exponent[2:0], mantissa[3:0]}` (R28). -/
def fieldForm (f : MuFields) : Byte := BitVec.ofBool f.sign ++ f.exponent ++ f.mantissa

/-- The fields of a field-form byte `u` (R28). -/
def fieldsOf (u : Byte) : MuFields :=
  { sign := u.getLsbD 7, exponent := u.extractLsb' 4 3, mantissa := u.extractLsb' 0 4 }

/-- The fields of a wire byte: all eight bits are inverted first (R28). -/
def fieldsOfWire (b : Byte) : MuFields := fieldsOf (~~~b)

/-- The wire byte of the fields: assembled, then all eight bits inverted (R28). -/
def wireOfFields (f : MuFields) : Byte := ~~~(fieldForm f)

/-- `s16(p)`: the value of a sample's pattern (R29). -/
def s16 (p : Sample) : Int := p.toInt

/-- `u16(v)`: the pattern of a sample's value (R29). -/
def u16 (v : Int) : Sample := BitVec.ofInt 16 v

/-- `le16(v) = [v[7:0], v[15:8]]` (R18). -/
def le16 (v : BitVec 16) : List Byte := [v.extractLsb' 0 8, v.extractLsb' 8 8]

/-- `le32(v) = [v[7:0], v[15:8], v[23:16], v[31:24]]` (R18). -/
def le32 (v : BitVec 32) : List Byte :=
  [v.extractLsb' 0 8, v.extractLsb' 8 8, v.extractLsb' 16 8, v.extractLsb' 24 8]

/-- The integer whose little-endian bytes are the given ones (R18, R58). -/
def leNat : List Byte → Nat
  | [] => 0
  | b :: bs => b.toNat + 256 * leNat bs

/-- The tag "RIFF" (R19). -/
def tagRiff : List Byte := [0x52, 0x49, 0x46, 0x46]

/-- The tag "WAVE" (R19). -/
def tagWave : List Byte := [0x57, 0x41, 0x56, 0x45]

/-- The tag "fmt ", with its trailing space (R19). -/
def tagFmt : List Byte := [0x66, 0x6D, 0x74, 0x20]

/-- The tag "data" (R19). -/
def tagData : List Byte := [0x64, 0x61, 0x74, 0x61]

/-- The sample in two buffer bytes, `buf[2j] + 256 * buf[2j+1]` (R18, R61). -/
def sampleOfBytes (lo hi : Byte) : Sample := BitVec.ofNat 16 (lo.toNat + 256 * hi.toNat)

/-- The whole samples of a buffer in order; an odd last byte is part of none and is ignored (R61, R63). -/
def samplesOf : List Byte → List Sample
  | lo :: hi :: rest => sampleOfBytes lo hi :: samplesOf rest
  | [_] => []
  | [] => []

/-- The bytes a host appends for a result (R18, R57, R60, R61): a frame's in offset order, a sample's little-endian. -/
def Result.bytes : Result → List Byte
  | .sample v => le16 v
  | .byte b => [b]
  | .frame f => f.toList

end Sys2Proof.Machine
end

