-- ==== Sys2Proof/Machine/Flags.lean ====
section
/-! DEFINITION. The block has no flags, condition codes or status bits (10_state.md rule R12). The one condition an
operation computes is `OverflowGuard`, the comparison of ENCODE's clamp (41_codec_encode.md rule R46): it selects the
clamped magnitude, raises nothing, is recorded nowhere and is no output (60_exceptions.md rule R68). -/

namespace Sys2Proof.Machine

/-- The comparison `mag0 > 32635` (R46, R51). -/
def overflowGuard (mag0 : Nat) : Bool := decide (Config.clip < mag0)

/-- The clamp: every magnitude above 32635 becomes 32635 (R44 step 2, R46). -/
def clampMagnitude (mag0 : Nat) : Nat := if overflowGuard mag0 then Config.clip else mag0

end Sys2Proof.Machine
end

