-- ==== Sys2Proof/Machine/Ops.lean ====
section
/-! DEFINITION. The operations every meaning shares: presenting a command and observing its result (10_state.md rule R9),
writing into a header frame and reading fields back (00_scope.md section 6, 42_container_framer.md rules R52 and R58).
There is no exception entry or return to model: no operation raises anything, nothing is saved and no vector is consulted
(60_exceptions.md rules R66, R71, R72). -/

namespace Sys2Proof.Machine

/-- The next command the host presents and the state it is presented in (R9); none when the host presents nothing. -/
def takeCommand (s : State) : Option (CmdWord × State) :=
  match s.commands with
  | [] => none
  | c :: rest => some (c, { s with commands := rest })

/-- The observation of a command's result (R9). -/
def State.record (s : State) (i : Instr) (r : Result) : State :=
  { s with log := s.log ++ [{ command := i, result := r }] }

/-- A step in which the host presents nothing: nothing happens (assumption log 3). -/
def idle (s : State) : State := s

/-- A reset of the surrounding design: it reaches nothing the block holds (R14, R75; assumption log 19). -/
def systemReset (s : State) : State := s

/-- The same instance with other commands to present. -/
def State.withCommands (s : State) (cs : List CmdWord) : State := { s with commands := cs }

/-- A frame before its first MemWrite. Every byte of it is overwritten by an HDR operation (assumption log 15). -/
def blankFrame : Frame := Vector.replicate 46 0

/-- `MemWrite` into a frame (00_scope.md section 6): the bytes are placed from offset `addr` upward. -/
def memWrite (f : Frame) (addr : Nat) : List Byte → Frame
  | [] => f
  | b :: bs => memWrite (f.setIfInBounds addr b) (addr + 1) bs

/-- `MemRead(addr, n)` (00_scope.md section 6): the `n` bytes at offset `addr`, assembled little-endian; none where the
sequence does not hold them all. -/
def memRead (buf : List Byte) (addr n : Nat) : Option Nat :=
  if addr + n ≤ buf.length then some (leNat ((buf.drop addr).take n)) else none

/-- The samples retained by a decimation that skips `skip` samples first and keeps one of every `factor` after (R62). -/
def decimateFrom (factor : Nat) : Nat → List Sample → List Sample
  | _, [] => []
  | 0, x :: xs => x :: decimateFrom factor (factor - 1) xs
  | skip + 1, _ :: xs => decimateFrom factor skip xs

/-- The samples at indices `0, F, 2F, …` (R62). -/
def decimate (factor : Nat) (xs : List Sample) : List Sample := decimateFrom factor 0 xs

/-- `ceil(a / b)` (00_scope.md section 6), for `b ≥ 1`. -/
def ceilDiv (a b : Nat) : Nat := (a + (b - 1)) / b

end Sys2Proof.Machine
end

