-- ==== Sys2Proof/Machine/Codec.lean ====
section
/-! DEFINITION. DECODE (40_codec_decode.md rule R39) and ENCODE (41_codec_encode.md rule R44), each value of their
pseudocode under its own name, and the meanings of the two operations. Magnitudes are exact integers; the only narrowing
is at the result. -/

namespace Sys2Proof.Machine

/-- DECODE step 3, `t1 = m | 0x10`. -/
def decodeT1 (m : Nat) : Nat := m ||| 0x10

/-- DECODE step 3, `t2 = (t1 << 1) + 1`. -/
def decodeT2 (m : Nat) : Nat := (decodeT1 m <<< 1) + 1

/-- DECODE step 3, `t3 = t2 << (e + 2)`. -/
def decodeT3 (e m : Nat) : Nat := decodeT2 m <<< (e + 2)

/-- DECODE step 3, `mag = t3 - 132`; the subtraction never borrows (R40). -/
def decodeMagnitude (e m : Nat) : Nat := decodeT3 e m - Config.bias

/-- DECODE step 4: the sign applied to the magnitude. -/
def decodeValue (f : MuFields) : Int :=
  let mag : Int := decodeMagnitude f.exponent.toNat f.mantissa.toNat
  if f.sign then 0 - mag else mag

/-- `DECODE(b)` (R39). -/
def muDecode (b : Byte) : Sample := u16 (decodeValue (fieldsOfWire b))

/-- ENCODE step 1, `sign = x[15]`. -/
def encodeSign (x : Sample) : Bool := x.getLsbD 15

/-- ENCODE step 1, `mag0`, 0 to 32768: the magnitude of −32768 is 32768 and does not wrap (R45; assumption log 6). -/
def encodeMag0 (x : Sample) : Nat := (if encodeSign x then 0 - s16 x else s16 x).toNat

/-- ENCODE steps 2 and 3, `bm = min(mag0, 32635) + 132`: the clamp comes before the bias (R77). -/
def encodeBiased (x : Sample) : Nat := clampMagnitude (encodeMag0 x) + Config.bias

/-- ENCODE step 4: from exponent `e` and its mask, down to the first mask that meets a set bit of `bm`. At `e = 0` the
scan stops: the last mask always meets one (R47; assumption log 13). -/
def exponentScan (bm : Nat) : Nat → Nat → Nat
  | 0, _ => 0
  | e + 1, mask => if bm &&& mask = 0 then exponentScan bm e (mask >>> 1) else e + 1

/-- ENCODE step 4: the scan from `e = 7`, `mask = 0x4000`. -/
def encodeExponent (bm : Nat) : Nat := exponentScan bm 7 Config.scanStart

/-- ENCODE step 5, `m = (bm >> (e + 3)) & 0x0F`. -/
def encodeMantissa (bm e : Nat) : Nat := (bm >>> (e + 3)) &&& 0x0F

/-- ENCODE steps 1 to 6: the fields of the byte. -/
def encodeFields (x : Sample) : MuFields :=
  let bm := encodeBiased x
  let e := encodeExponent bm
  { sign := encodeSign x, exponent := BitVec.ofNat 3 e, mantissa := BitVec.ofNat 4 (encodeMantissa bm e) }

/-- `ENCODE(x)` (R44); step 7 inverts all eight bits. -/
def muEncode (x : Sample) : Byte := wireOfFields (encodeFields x)

/-- DECODE (R39): the sample of the byte is observed; nothing else changes (R5, R12). -/
def execDecode (b : Byte) (s : State) : Host.Outcome State Fault Refusal :=
  .next (s.record (.decode b) (.sample (muDecode b)))

/-- ENCODE (R44): the byte of the sample is observed; nothing else changes (R5, R12). -/
def execEncode (x : Sample) (s : State) : Host.Outcome State Fault Refusal :=
  .next (s.record (.encode x) (.byte (muEncode x)))

end Sys2Proof.Machine
end

