-- ==== Sys2Proof/Machine/Marshal.lean ====
section
/-! DEFINITION. HDR_PCM and HDR_G711 (42_container_framer.md rules R52, R53): the header frame's fields by variant
(30_encoding.md rule R32), their layout (rule R30), and the meanings of the two operations. -/

namespace Sys2Proof.Machine

/-- The header's integer fields, in the order of R30. -/
structure HeaderFields where
  chunkSize : Word32
  fmtSize : Word32
  formatCode : Word16
  channels : Word16
  sampleRate : Word32
  byteRate : Word32
  blockAlign : Word16
  bitsPerSample : Word16
  extensionSize : Word16
  dataSize : Word32
  deriving DecidableEq, Repr

/-- `chunkSize = trunc_32(n + 38)` (R54; it wraps where the sum does not fit, R55; assumption log 8). -/
def chunkSizeOf (n : Word32) : Word32 := trunc32 (n.toNat + Config.riffOverhead)

/-- `byteRate = trunc_32(r * 2)` of the linear-PCM variant (R32, R53; assumption log 7). -/
def pcmByteRate (r : Word32) : Word32 := trunc32 (r.toNat * 2)

/-- The fields HDR_G711 writes (R32, R52). -/
def g711Fields (n : Word32) : HeaderFields :=
  { chunkSize := chunkSizeOf n, fmtSize := Config.fmtSize, formatCode := Config.fmtMulaw,
    channels := Config.channels, sampleRate := Config.g711Rate, byteRate := Config.g711Rate,
    blockAlign := Config.g711BlockAlign, bitsPerSample := Config.g711Bits,
    extensionSize := Config.extSize, dataSize := n }

/-- The fields HDR_PCM writes, `r` the value of `PCM_SAMPLE_RATE` (R32, R53). -/
def pcmFields (r n : Word32) : HeaderFields :=
  { chunkSize := chunkSizeOf n, fmtSize := Config.fmtSize, formatCode := Config.fmtPcm,
    channels := Config.channels, sampleRate := r, byteRate := pcmByteRate r,
    blockAlign := Config.pcmBlockAlign, bitsPerSample := Config.pcmBits,
    extensionSize := Config.extSize, dataSize := n }

/-- The MemWrite sequence of R52 and R53, in their order, over a frame `f`. -/
def marshal (h : HeaderFields) (f : Frame) : Frame :=
  let f := memWrite f 0 tagRiff
  let f := memWrite f 4 (le32 h.chunkSize)
  let f := memWrite f 8 tagWave
  let f := memWrite f 12 tagFmt
  let f := memWrite f 16 (le32 h.fmtSize)
  let f := memWrite f 20 (le16 h.formatCode)
  let f := memWrite f 22 (le16 h.channels)
  let f := memWrite f 24 (le32 h.sampleRate)
  let f := memWrite f 28 (le32 h.byteRate)
  let f := memWrite f 32 (le16 h.blockAlign)
  let f := memWrite f 34 (le16 h.bitsPerSample)
  let f := memWrite f 36 (le16 h.extensionSize)
  let f := memWrite f 38 tagData
  memWrite f 42 (le32 h.dataSize)

/-- `HDR_G711(n)` (R52). -/
def hdrG711Frame (n : Word32) : Frame := marshal (g711Fields n) blankFrame

/-- `HDR_PCM(n)` at `PCM_SAMPLE_RATE = r` (R53). -/
def hdrPcmFrame (r n : Word32) : Frame := marshal (pcmFields r n) blankFrame

/-- HDR_PCM (R53): the frame is observed; nothing else changes. The one operation that reads the configuration (R13). -/
def execHdrPcm (n : Word32) (s : State) : Host.Outcome State Fault Refusal :=
  .next (s.record (.hdrPcm n) (.frame (hdrPcmFrame s.pcmSampleRate n)))

/-- HDR_G711 (R52): the frame is observed; nothing else changes. -/
def execHdrG711 (n : Word32) (s : State) : Host.Outcome State Fault Refusal :=
  .next (s.record (.hdrG711 n) (.frame (hdrG711Frame n)))

end Sys2Proof.Machine
end

