-- ==== Sys2Proof/Machine/Dispatch.lean ====
section
/-! DEFINITION. The one arm per operation that names its meaning (30_encoding.md rule R33). -/

namespace Sys2Proof.Machine

def exec (i : Instr) (s : State) : Host.Outcome State Fault Refusal :=
  match i with
  | .decode b => Sys2Proof.Machine.execDecode b s
  | .encode x => Sys2Proof.Machine.execEncode x s
  | .hdrPcm n => Sys2Proof.Machine.execHdrPcm n s
  | .hdrG711 n => Sys2Proof.Machine.execHdrG711 n s

end Sys2Proof.Machine
end

