-- ==== Sys2Proof/Machine/Step.lean ====
section
/-! DEFINITION. One step is one transaction (10_state.md rule R9): the host presents its next command word, the block's
operation for it is performed and its result observed. -/

namespace Sys2Proof.Machine

/-- One transaction (R9). With no command to present nothing happens (assumption log 3). -/
def step (s : State) : Host.Outcome State Fault Refusal :=
  match takeCommand s with
  | none => .next (idle s)
  | some (c, t) => exec (decode c) t

/-- The state in which the host presents the command word `w` next (assumption log 4): bit 0 of `w` is bit 0 of `cmd`,
bits from `nbits` up are 0. -/
def State.withFetchWord (s : State) (nbits w : Nat) : State :=
  { s with commands := BitVec.ofNat 34 (w % 2 ^ nbits) :: s.commands }

end Sys2Proof.Machine
end

