-- ==== Sys2Proof/Machine/Instances.lean ====
section
/-! DEFINITION. Several instances of the block side by side (10_state.md rule R16): nothing is shared, so a system is a
list of states and a step of one instance is a step of that state. -/

namespace Sys2Proof.Machine

/-- One transaction of instance `k` (R16). -/
def stepInstance (k : Nat) (sys : List State) : Host.Outcome (List State) Fault Refusal :=
  match sys[k]? with
  | none => .refused (.noSuchInstance k)
  | some s =>
    match step s with
    | .next t => .next (sys.set k t)
    | .fault r => .fault r
    | .refused r => .refused r

/-- One transaction of instance `j`, then one of instance `k`. -/
def stepTwo (j k : Nat) (sys : List State) : Host.Outcome (List State) Fault Refusal :=
  match stepInstance j sys with
  | .next sys' => stepInstance k sys'
  | .fault r => .fault r
  | .refused r => .refused r

end Sys2Proof.Machine
end

