-- ==== Sys2Proof/Machine/Pipeline.lean ====
section
/-! DEFINITION. The host procedures STRIP, G711_TO_PCM and PCM_TO_G711 (43_pipeline_host.md): functions over whole byte
sequences that call the block's operations (rule R27), answering a whole output or a failure (rule R71); and the commands
each one expands to (30_encoding.md rule R38). -/

namespace Sys2Proof.Machine

/-- What a host procedure answers: the output bytes, `TruncatedInputError`, or a refusal outside its premises (R71). -/
abbrev ProcOutcome := Host.Outcome (List Byte) Fault Refusal

/-- STRIP (R59): the length check comes first and reads no byte (R67); the 46 bytes are skipped, not read. -/
def strip (buf : List Byte) : ProcOutcome :=
  if buf.length < Config.vendorHdrLen then .fault (.truncatedInputError buf.length)
  else .next (buf.drop Config.vendorHdrLen)

/-- The output of G711_TO_PCM for the stripped bytes: the frame for `2N`, then each decoded sample little-endian
(R60). -/
def pcmFile (rate : Word32) (rest : List Byte) : List Byte :=
  (hdrPcmFrame rate (trunc32 (2 * rest.length))).toList ++ rest.flatMap (fun b => le16 (muDecode b))

/-- G711_TO_PCM (R60). A count `2N` that does not fit the operand is refused (R81, decision D19). -/
def g711ToPcm (rate : Word32) (buf : List Byte) : ProcOutcome :=
  match strip buf with
  | .fault r => .fault r
  | .refused r => .refused r
  | .next rest =>
    if 2 * rest.length < 2 ^ 32 then .next (pcmFile rate rest)
    else .refused (.payloadCountTooLarge (2 * rest.length))

/-- The output of PCM_TO_G711 for the retained samples: the frame for their count, then each encoded byte (R61). -/
def g711File (kept : List Sample) : List Byte :=
  (hdrG711Frame (trunc32 kept.length)).toList ++ kept.map muEncode

/-- PCM_TO_G711 (R61): factor 0 is refused (decision D13), as is a count that does not fit the operand (decision D19). -/
def pcmToG711 (buf : List Byte) (factor : Nat) : ProcOutcome :=
  if factor = 0 then .refused .zeroDownsampleFactor
  else
    let kept := decimate factor (samplesOf buf)
    if kept.length < 2 ^ 32 then .next (g711File kept)
    else .refused (.payloadCountTooLarge kept.length)

/-- PCM_TO_G711 with the default factor 2 (R61). -/
def pcmToG711Default (buf : List Byte) : ProcOutcome := pcmToG711 buf Config.downsampleFactorDefault

/-- A pseudo-operation of R38 on an instance of the given rate. -/
def runHostCall (rate : Word32) : HostCall → ProcOutcome
  | .strip buf => strip buf
  | .g711ToPcm buf => g711ToPcm rate buf
  | .pcmToG711 buf factor => pcmToG711 buf factor

/-- The commands G711_TO_PCM presents to the block (R38): one `HDR_PCM 2N`, then `DECODE` of each remaining byte; none
where the procedure gives no output (R70). -/
def g711ToPcmCommands (buf : List Byte) : List Instr :=
  match strip buf with
  | .next rest =>
    if 2 * rest.length < 2 ^ 32 then .hdrPcm (trunc32 (2 * rest.length)) :: rest.map Instr.decode else []
  | .fault _ => []
  | .refused _ => []

/-- The commands PCM_TO_G711 presents to the block (R38): one `HDR_G711 K`, then `ENCODE` of each retained sample. -/
def pcmToG711Commands (buf : List Byte) (factor : Nat) : List Instr :=
  if factor = 0 then []
  else
    let kept := decimate factor (samplesOf buf)
    if kept.length < 2 ^ 32 then .hdrG711 (trunc32 kept.length) :: kept.map Instr.encode else []

/-- The block operations a pseudo-operation expands to (R38); STRIP uses none. -/
def expansion : HostCall → List Instr
  | .strip _ => []
  | .g711ToPcm buf => g711ToPcmCommands buf
  | .pcmToG711 buf factor => pcmToG711Commands buf factor

end Sys2Proof.Machine
end

