-- ==== Sys2Proof/Machine/Ports.lean ====
section
/-! DEFINITION. The ports of the three units and of the wrapper (10_state.md rules R6 to R9): each output as the
combinational function of the inputs that it is at every time (rule R14). The wrapper is written from rule R9 and the two
bits of `op` (rule R33), not from the decoder. -/

namespace Sys2Proof.Machine

/-- `mulaw_decoder`: `lin_out` of `mu_in` (R6). -/
def linOut (muIn : Byte) : Sample := muDecode muIn

/-- `mulaw_encoder`: `mu_out` of `lin_in` (R7). -/
def muOut (linIn : Sample) : Byte := muEncode linIn

/-- `wav_header_marshal`: `frame` of `hdr_sel` (false the linear-PCM variant, true the G.711 variant) and
`payload_bytes`, in an instance of the given rate (R8). -/
def frameOut (rate : Word32) (hdrSel : Bool) (payloadBytes : Word32) : Frame :=
  if hdrSel then hdrG711Frame payloadBytes else hdrPcmFrame rate payloadBytes

/-- The frame on the flat bus `frame_bits[367:0]`: byte `i` in bits `8i+7` to `8i` (R8). -/
def frameBits (f : Frame) : BitVec 368 := BitVec.ofNat 368 (leNat f.toList)

/-- The wrapper's result: `op[1]` chooses codec or marshal; `op[0]` chooses the codec's direction and is the marshal's
`hdr_sel`; `arg` is routed to the unit's inputs (R9, R33, R34). -/
def wrapperResult (rate : Word32) (cmd : CmdWord) : Result :=
  if cmd.getLsbD 33 then .frame (frameOut rate (cmd.getLsbD 32) (cmd.extractLsb' 0 32))
  else if cmd.getLsbD 32 then .byte (muOut (cmd.extractLsb' 0 16))
  else .sample (linOut (cmd.extractLsb' 0 8))

end Sys2Proof.Machine
end

