-- ==== Sys2Proof/Machine/Text.lean ====
section
/-! DEFINITION. The written notation of 30_encoding.md rule R37: `MNEMONIC operand`, and `MNEMONIC operand -> result`. A
text is its list of characters. What the rule leaves to a writer (one space, capital digits) is assumption log 16. -/

namespace Sys2Proof.Machine

/-- The characters of a mnemonic (R33). -/
def mnemonicText : Mnemonic → List Char
  | .decode => ['D', 'E', 'C', 'O', 'D', 'E']
  | .encode => ['E', 'N', 'C', 'O', 'D', 'E']
  | .hdrPcm => ['H', 'D', 'R', '_', 'P', 'C', 'M']
  | .hdrG711 => ['H', 'D', 'R', '_', 'G', '7', '1', '1']

/-- The sixteen digits. -/
def digitTable : List Char :=
  ['0', '1', '2', '3', '4', '5', '6', '7', '8', '9', 'A', 'B', 'C', 'D', 'E', 'F']

/-- The character of a digit below 16. -/
def digitChar (d : Nat) : Char := digitTable.getD (d % 16) '0'

/-- The digit of a character in base `base`. -/
def charDigit (base : Nat) (c : Char) : Option Nat :=
  let d := digitTable.idxOf c
  if d < base then some d else none

/-- The last `digits` hexadecimal digits of `v`, most significant first. -/
def hexChars : Nat → Nat → List Char
  | 0, _ => []
  | digits + 1, v => hexChars digits (v / 16) ++ [digitChar (v % 16)]

/-- The decimal digits of `v`, with no leading zero, at most `fuel` of them. -/
def decimalChars : Nat → Nat → List Char
  | 0, _ => []
  | fuel + 1, v => if v < 10 then [digitChar v] else decimalChars fuel (v / 10) ++ [digitChar (v % 10)]

/-- The decimal digits of an operand or a result: a 32-bit count has at most ten. -/
def natChars (v : Nat) : List Char := decimalChars 10 v

/-- A signed decimal. -/
def intChars (v : Int) : List Char :=
  if v < 0 then '-' :: natChars v.natAbs else natChars v.natAbs

/-- A written operand (R37). -/
def numeralText : Numeral → List Char
  | .decimal v => intChars v
  | .hex digits v => ['0', 'x'] ++ hexChars digits v

/-- A written line (R37). -/
def lineText (l : SourceLine) : List Char := mnemonicText l.mnemonic ++ [' '] ++ numeralText l.operand

/-- The value of a digit sequence read from the left, `acc` the value so far. -/
def digitsValue (base : Nat) : Nat → List Char → Option Nat
  | acc, [] => some acc
  | acc, c :: cs =>
    match charDigit base c with
    | some d => digitsValue base (base * acc + d) cs
    | none => none

/-- An unsigned decimal: at least one digit. -/
def parseNat (cs : List Char) : Option Nat := if cs.isEmpty then none else digitsValue 10 0 cs

/-- A written operand read back (R37). -/
def parseNumeral : List Char → Option Numeral
  | '0' :: 'x' :: cs => (digitsValue 16 0 cs).map (fun v => Numeral.hex cs.length v)
  | '-' :: cs => (parseNat cs).map (fun v => Numeral.decimal (-(v : Int)))
  | cs => (parseNat cs).map (fun v => Numeral.decimal (v : Int))

/-- What follows a prefix, if the text begins with it. -/
def dropPrefix : List Char → List Char → Option (List Char)
  | [], cs => some cs
  | _ :: _, [] => none
  | p :: ps, c :: cs => if p = c then dropPrefix ps cs else none

/-- The line of one mnemonic that a text is. -/
def parseLineAs (m : Mnemonic) (cs : List Char) : Option SourceLine :=
  match dropPrefix (mnemonicText m ++ [' ']) cs with
  | some rest => (parseNumeral rest).map (fun v => { mnemonic := m, operand := v })
  | none => none

/-- A written line read back (R37); a text that is none of the four forms, or whose operand R37 does not allow, is
none. -/
def parseLine (cs : List Char) : Option SourceLine :=
  let found := (parseLineAs .decode cs).or
    ((parseLineAs .encode cs).or ((parseLineAs .hdrPcm cs).or (parseLineAs .hdrG711 cs)))
  match found with
  | some l => if l.wellFormed then some l else none
  | none => none

/-- Bytes as pairs of hexadecimal digits, a space between two of them. -/
def bytesText : List Byte → List Char
  | [] => []
  | [b] => hexChars 2 b.toNat
  | b :: bs => hexChars 2 b.toNat ++ [' '] ++ bytesText bs

/-- A written result (R37): a DECODE result as signed decimal, an ENCODE result as `0xHH`, a frame as 46 hexadecimal
bytes in offset order. -/
def resultText : Result → List Char
  | .sample v => intChars (s16 v)
  | .byte b => ['0', 'x'] ++ hexChars 2 b.toNat
  | .frame f => bytesText f.toList

/-- `MNEMONIC operand -> result` (R37). -/
def transactionText (t : Transaction) : List Char :=
  lineText (disassemble t.command) ++ [' ', '-', '>', ' '] ++ resultText t.result

end Sys2Proof.Machine
end

