-- ==== Sys2Proof/Safety.lean ====
section
/-! DEFINITION. The terms the statements are written in: runs of transactions, the state invariant of 10_state.md rule R5,
and what a well-formed output file is (70_reset_and_hazards.md rule R81). -/

namespace Sys2Proof.Machine

/-- `k` transactions of the machine. -/
abbrev runSteps (k : Nat) (s : State) : Host.Outcome State Fault Refusal := Host.Core.run Sys2Proof.core k s

/-- R5: every transaction observed so far has the result that is a function of its command and of the configuration
alone, namely what the wrapper's ports give for the command's word. -/
abbrev State.Inv (s : State) : Prop :=
  ∀ t ∈ s.log, t.result = wrapperResult s.pcmSampleRate (encode t.command)

/-- The transaction of a command word on an instance of the given rate, from the ports alone (R5, R9). -/
def answer (rate : Word32) (c : CmdWord) : Transaction :=
  { command := decode c, result := wrapperResult rate c }

/-- An output file whose `chunkSize` and `dataSize` describe its own length (R54, R56, R81). -/
def WellFormedFile (out : List Byte) : Prop :=
  Config.hdrLen ≤ out.length ∧
  memRead out 4 4 = some (out.length - 8) ∧ memRead out 42 4 = some (out.length - Config.hdrLen)

/-- The number of payload bytes is one whose `chunkSize` does not wrap (R55, R81). -/
def PayloadInBounds (count : Nat) : Prop := count ≤ Config.maxPayload

end Sys2Proof.Machine
end

