-- ==== Sys2Proof/Certificates/Slice0/Obligations.lean ====
section
/-! DEFINITION. The statements for the provers, rule by rule of the specification. Values are written out as the rules
give them, with plain arithmetic, wherever a rule gives one; `linOut`, `muOut` and `frameOut` are the output ports of
rules R6 to R8. -/

open Sys2Proof Sys2Proof.Machine

/-! ### Decoding and encoding of the command word -/

/-- R33, R34: words of 95_test_vectors.md programs P1 and P2, and words with ignored bits set. -/
def Obligations.WrittenOutWordsDecode : Prop :=
  decode 0x0000000A5#34 = .decode 0xA5 ∧
  decode 0x0FFFFFFA5#34 = .decode 0xA5 ∧
  decode 0x10000FC18#34 = .encode 0xFC18 ∧
  decode 0x1FFFF8000#34 = .encode 0x8000 ∧
  decode 0x200000008#34 = .hdrPcm 8 ∧
  decode 0x301020304#34 = .hdrG711 0x01020304

/-- R33, R34: every operation with every operand comes back from its command word. -/
def Obligations.DecodeOfEncodeIsTheInstruction : Prop :=
  ∀ i : Instr, decode (encode i) = i

/-- R34: encoding what a word decodes to clears the word's ignored bits and changes no other bit. -/
def Obligations.EncodeOfDecodeClearsOnlyIgnoredBits : Prop :=
  ∀ c : CmdWord, encode (decode c) = c &&& significantMask (decode c).mnemonic

/-- R33, R35: the rows' match and mask leave no word out and none to two rows, and the row is the decoded operation's. -/
def Obligations.EveryWordMatchesExactlyItsOpcodeRow : Prop :=
  ∀ c : CmdWord, (opcodeTable.filter (fun r => r.matchesWord c)).map OpcodeRow.mnemonic = [(decode c).mnemonic]

/-- R35: every 34-bit number is an operation, and every operation runs from every state: there is no illegal, reserved
or hint encoding and no illegal operand. -/
def Obligations.Every34BitNumberIsAnOperationThatRuns : Prop :=
  ∀ w, w < 2 ^ 34 → ∃ i : Instr,
    decodeNat w = .ok i ∧ decodeTableWord 40 w = some i ∧ ∀ s : State, ∃ t, exec i s = .next t

/-- A number of more than 34 bits is rejected by name: the model's choice (log 5). -/
def Obligations.WiderNumbersAreRejectedByName : Prop :=
  ∀ w, 2 ^ 34 ≤ w → decodeNat w = .error (.widerThanCmd w)

/-- R33, R34 (decisions D3, D4): the operand each operation takes from `arg`, and that two commands with the same `op`
that agree on the operand's bits have the same step. -/
def Obligations.OperandsComeFromArgAndIgnoredBitsHaveNoEffect : Prop :=
  (∀ arg : Word32,
    decode (0b00#2 ++ arg) = .decode (arg.extractLsb' 0 8) ∧
    decode (0b01#2 ++ arg) = .encode (arg.extractLsb' 0 16) ∧
    decode (0b10#2 ++ arg) = .hdrPcm arg ∧
    decode (0b11#2 ++ arg) = .hdrG711 arg) ∧
  (∀ (s : State) (c c' : CmdWord) (rest : List CmdWord),
    c &&& significantMask (decode c).mnemonic = c' &&& significantMask (decode c).mnemonic →
    step (s.withCommands (c :: rest)) = step (s.withCommands (c' :: rest)))

/-! ### Transactions, state and runs -/

/-- R9: one step is the transaction of the next command presented. -/
def Obligations.StepRunsThePresentedCommand : Prop :=
  ∀ (s : State) (c : CmdWord) (rest : List CmdWord), s.commands = c :: rest →
    step s = exec (decode c) { s with commands := rest }

/-- With no command presented nothing happens: the model's choice (log 3). -/
def Obligations.StepWithNothingPresentedChangesNothing : Prop :=
  ∀ s : State, s.commands = [] → step s = .next s

/-- The host's word is presented next and runs first, from every state: the model's interface (log 4). -/
def Obligations.FetchWordRunsFirst : Prop :=
  ∀ (s : State) (w : Nat), w < 2 ^ 34 →
    decodeTableWord 40 w = some (decode (BitVec.ofNat 34 w)) ∧
    step (s.withFetchWord 40 w) = exec (decode (BitVec.ofNat 34 w)) s

/-- R4: the reset instance has the default rate; that nothing is presented or logged is the model's (log 1, 2). -/
def Obligations.ResetHasTheDefaultRateAndNoHistory : Prop :=
  State.reset.pcmSampleRate = 8000 ∧ State.reset.commands = [] ∧ State.reset.log = []

/-- R66: no operation of the block faults or is refused. Of the step and run clauses, what concerns a step with no
command presented, of which R66 does not speak, is the model's choice (log 3). -/
def Obligations.NoStepEverStops : Prop :=
  (∀ (i : Instr) (s : State), ∃ t, exec i s = .next t) ∧
  (∀ s : State, ∃ t, step s = .next t) ∧
  (∀ (k : Nat) (s : State), ∃ t, runSteps k s = .next t)

/-- R5, R10 to R13: an operation's only effect is its result; frame of all four operations. -/
def Obligations.OperationsOnlyAppendTheirResult : Prop :=
  ∀ (i : Instr) (s t : State), exec i s = .next t →
    t.pcmSampleRate = s.pcmSampleRate ∧ t.commands = s.commands ∧
    ∃ r : Result, t.log = s.log ++ [{ command := i, result := r }]

/-- R9: 16 bits for DECODE, 8 bits for ENCODE, 46 bytes for the two HDR operations; every operation completes. -/
def Obligations.ResultWidthIsTheOperations : Prop :=
  ∀ (i : Instr) (s : State), ∃ r : Result,
    exec i s = .next { s with log := s.log ++ [{ command := i, result := r }] } ∧
    r.bytes.length =
      (match i with
       | .decode _ => 2
       | .encode _ => 1
       | .hdrPcm _ => 46
       | .hdrG711 _ => 46) ∧
    (match i, r with
     | .decode _, .sample _ => True
     | .encode _, .byte _ => True
     | .hdrPcm _, .frame _ => True
     | .hdrG711 _, .frame _ => True
     | _, _ => False)

/-- R9: the wrapper adds no behaviour; the step observes what its routing gives for the presented word. -/
def Obligations.StepObservesTheWrappersResult : Prop :=
  ∀ (s : State) (c : CmdWord) (rest : List CmdWord), s.commands = c :: rest →
    step s = .next { s with
      commands := rest
      log := s.log ++ [{ command := decode c, result := wrapperResult s.pcmSampleRate c }] }

/-- R5: every result in the log stays a function of its command and of the configuration, over every step. -/
def Obligations.EveryStepKeepsTheLogAFunctionOfCommands : Prop :=
  ∀ s t : State, s.Inv → step s = .next t → t.Inv

/-- The invariant of the statement before holds at reset, because the log is empty there: the model's choice (log 2),
which says nothing about the hardware. -/
def Obligations.ResetLogIsAFunctionOfCommands : Prop := State.reset.Inv

/-- R5, R9, R24: a whole run presents every command once, in order, and logs for each what the ports give for it. -/
def Obligations.RunLogsTheAnswerOfEachCommandInOrder : Prop :=
  ∀ s : State, runSteps s.commands.length s =
    .next { s with commands := [], log := s.log ++ s.commands.map (answer s.pcmSampleRate) }

/-- R13: no step and no run writes the configuration. -/
def Obligations.NoRunChangesTheSampleRate : Prop :=
  ∀ (k : Nat) (s t : State), runSteps k s = .next t → t.pcmSampleRate = s.pcmSampleRate

/-- R5, R15: what a command answers is a function of it and of the configuration: it does not depend on what was
presented or observed before, and its step changes nothing but the observation. -/
def Obligations.AnswerDoesNotDependOnHistory : Prop :=
  ∀ (s₁ s₂ : State) (c : CmdWord) (r₁ r₂ : List CmdWord),
    s₁.pcmSampleRate = s₂.pcmSampleRate → s₁.commands = c :: r₁ → s₂.commands = c :: r₂ →
    ∃ a : Transaction,
      step s₁ = .next { s₁ with commands := r₁, log := s₁.log ++ [a] } ∧
      step s₂ = .next { s₂ with commands := r₂, log := s₂.log ++ [a] }

/-- R13: HDR_PCM alone reads the configuration, and shows it in frame bytes 24 to 31 alone. -/
def Obligations.OnlyHdrPcmReadsTheRateAtOffsets24To31 : Prop :=
  (∀ (i : Instr) (s s' : State), (∀ n, i ≠ .hdrPcm n) → ∃ r : Result,
    exec i s = .next { s with log := s.log ++ [{ command := i, result := r }] } ∧
    exec i s' = .next { s' with log := s'.log ++ [{ command := i, result := r }] }) ∧
  (∀ (r r' n : Word32) (j : Nat) (hj : j < 46), j < 24 ∨ 32 ≤ j →
    (frameOut r false n)[j] = (frameOut r' false n)[j]) ∧
  (∀ r r' n : Word32, frameOut r false n = frameOut r' false n → r = r')

/-- R16: of any interleaving of the commands of any number of hosts, each host observes what it observes alone. -/
def Obligations.InterleavedHostsObserveWhatTheyWouldAlone : Prop :=
  ∀ (s : State) (tagged : List (Nat × CmdWord)), ∃ (t : State) (new : List Transaction),
    runSteps tagged.length (s.withCommands (tagged.map Prod.snd)) = .next t ∧
    t.log = s.log ++ new ∧ new.length = tagged.length ∧
    ∀ host : Nat, ∃ t' : State,
      runSteps (tagged.filter (fun p => p.1 == host)).length
        (s.withCommands ((tagged.filter (fun p => p.1 == host)).map Prod.snd)) = .next t' ∧
      t'.log = s.log ++ ((tagged.zip new).filter (fun p => p.1.1 == host)).map Prod.snd

/-- R16: a transaction of one instance is a step of that instance's own state and leaves every other instance as it was;
transactions of two instances commute, complete, and take each of the two to the step of its own state. That the system is
a list of states is the model's (log 17); what the step of an instance with no command presented is, too (log 3). -/
def Obligations.InstancesDoNotAffectEachOther : Prop :=
  (∀ (k : Nat) (sys : List State) (s : State), sys[k]? = some s →
    ∃ (t : State) (sys' : List State), step s = .next t ∧ stepInstance k sys = .next sys' ∧
      sys'.length = sys.length ∧ sys'[k]? = some t ∧ ∀ l, l ≠ k → sys'[l]? = sys[l]?) ∧
  (∀ (j k : Nat) (sys : List State) (sj sk : State), j ≠ k → sys[j]? = some sj → sys[k]? = some sk →
    ∃ (tj tk : State) (sys' : List State), step sj = .next tj ∧ step sk = .next tk ∧
      stepTwo j k sys = .next sys' ∧ stepTwo k j sys = .next sys' ∧
      sys'.length = sys.length ∧ sys'[j]? = some tj ∧ sys'[k]? = some tk ∧
      ∀ l, l ≠ j → l ≠ k → sys'[l]? = sys[l]?)

/-- R14, R75: a reset of the surrounding design changes no answer and not the configuration. -/
def Obligations.SystemResetChangesNothing : Prop :=
  ∀ s : State, (systemReset s).pcmSampleRate = s.pcmSampleRate ∧ step (systemReset s) = step s

/-! ### The units' ports -/

/-- R6, R7: the codec units' outputs are what DECODE and ENCODE observe. -/
def Obligations.CodecPortsCarryTheOperationsResults : Prop :=
  (∀ (b : Byte) (s : State), exec (.decode b) s =
    .next { s with log := s.log ++ [{ command := .decode b, result := .sample (linOut b) }] }) ∧
  (∀ (x : Sample) (s : State), exec (.encode x) s =
    .next { s with log := s.log ++ [{ command := .encode x, result := .byte (muOut x) }] })

/-- R8: `hdr_sel` selects the variant, and byte `i` of the frame occupies bits `8i+7` to `8i` of the flat bus. -/
def Obligations.MarshalPortSelectsTheVariantAndItsFlatBus : Prop :=
  (∀ (n : Word32) (s : State), exec (.hdrPcm n) s =
    .next { s with log := s.log ++ [{ command := .hdrPcm n, result := .frame (frameOut s.pcmSampleRate false n) }] }) ∧
  (∀ (n : Word32) (s : State), exec (.hdrG711 n) s =
    .next { s with log := s.log ++ [{ command := .hdrG711 n, result := .frame (frameOut s.pcmSampleRate true n) }] }) ∧
  (∀ (f : Frame) (i : Nat) (hi : i < 46), (frameBits f).extractLsb' (8 * i) 8 = f[i])

/-! ### DECODE -/

/-- R39: DECODE, selected by `op = 0b00` with its byte in `arg[7:0]`, gives this sample on `lin_out`, completes from
every state, observes the sample and changes nothing else. -/
def Obligations.DecodeObservesTheR39Sample : Prop :=
  (∀ arg : Word32, decode (0b00#2 ++ arg) = .decode (arg.extractLsb' 0 8)) ∧
  (∀ (b : Byte) (s : State),
    let u := 255 - b.toNat
    let e := u / 16 % 8
    let m := u % 16
    let mag : Int := (2 * m + 33) * 2 ^ (e + 2) - 132
    let v : Sample := BitVec.ofInt 16 (if 128 ≤ u then 0 - mag else mag)
    linOut b = v ∧
    exec (.decode b) s = .next { s with log := s.log ++ [{ command := .decode b, result := .sample v }] })

/-- R40 (the specification's own derivation): the ranges of DECODE's intermediates; the subtraction never borrows and
the negation never overflows 16 bits. -/
def Obligations.DecodeIntermediatesStayInRange : Prop :=
  ∀ e, e < 8 → ∀ m, m < 16 →
    decodeT1 m = 16 + m ∧ decodeT2 m = 2 * (16 + m) + 1 ∧ decodeT2 m ≤ 63 ∧
    132 ≤ decodeT3 e m ∧ decodeT3 e m ≤ 32256 ∧ decodeMagnitude e m + 132 = decodeT3 e m ∧
    decodeMagnitude e m ≤ 32124 ∧
    (BitVec.ofInt 16 (0 - (decodeMagnitude e m : Int))).toInt = 0 - (decodeMagnitude e m : Int)

/-- R41 (the specification's own derivation): the closed form, the spacing within a segment and between
segments, the order of the magnitudes, and the two wire bytes of each. -/
def Obligations.DecodeSegmentTable : Prop :=
  (∀ e, e < 8 → ∀ m, m < 16 →
    decodeMagnitude e m + 132 = (2 * m + 33) * 2 ^ (e + 2) ∧
    decodeMagnitude e m + 132 = (16 + m) * 2 ^ (e + 3) + 2 ^ (e + 2) ∧
    (linOut (BitVec.ofNat 8 (0xFF - (16 * e + m)))).toInt = (decodeMagnitude e m : Int) ∧
    (linOut (BitVec.ofNat 8 (0x7F - (16 * e + m)))).toInt = -(decodeMagnitude e m : Int)) ∧
  (∀ e, e < 8 → ∀ m, m < 15 → decodeMagnitude e (m + 1) = decodeMagnitude e m + 2 ^ (e + 3)) ∧
  (∀ e, e < 7 → decodeMagnitude (e + 1) 0 = decodeMagnitude e 15 + 12 * 2 ^ e) ∧
  (∀ e m e' m' : Nat, e' < 8 → m < 16 → m' < 16 → 16 * e + m < 16 * e' + m' →
    decodeMagnitude e m < decodeMagnitude e' m')

/-- R42 (the specification's own derivation): DECODE identifies the two zero bytes and no other two bytes, so that its
256 inputs give 255 results; the most negative result comes from 0x00 alone. -/
def Obligations.DecodeIdentifiesOnlyTheTwoZeroBytes : Prop :=
  linOut 0xFF = 0 ∧ linOut 0x7F = 0 ∧
  (∀ b b' : Byte, linOut b = linOut b' → b = b' ∨ ((b = 0xFF ∨ b = 0x7F) ∧ (b' = 0xFF ∨ b' = 0x7F))) ∧
  (∀ b : Byte, (linOut b).toInt ≤ -32124 ↔ b = 0x00)

/-- R43 (the specification's own derivation): the results and their range, the symmetry under wire bit 7, and the order
of the results in the wire byte. -/
def Obligations.DecodeRangeSymmetryAndOrder : Prop :=
  (∀ b : Byte, -32124 ≤ (linOut b).toInt ∧ (linOut b).toInt ≤ 32124) ∧
  (∀ v : Int, (∃ b : Byte, (linOut b).toInt = v) ↔
    ∃ e m : Nat, e < 8 ∧ m < 16 ∧ (v = decodeMagnitude e m ∨ v = -(decodeMagnitude e m : Int))) ∧
  (∀ b : Byte, linOut (b ^^^ 0x80) = BitVec.ofInt 16 (0 - (linOut b).toInt)) ∧
  (∀ b b' : Byte, 0x80 ≤ b.toNat → b.toNat < b'.toNat → (linOut b').toInt < (linOut b).toInt) ∧
  (∀ b b' : Byte, b.toNat < b'.toNat → b'.toNat < 0x80 → (linOut b).toInt < (linOut b').toInt)

/-! ### ENCODE -/

/-- R44: ENCODE, selected by `op = 0b01` with its sample in `arg[15:0]`, gives this byte on `mu_out`, completes from
every state, observes the byte and changes nothing else. The exponent is written in R47's closed form. -/
def Obligations.EncodeObservesTheR44Byte : Prop :=
  (∀ arg : Word32, decode (0b01#2 ++ arg) = .encode (arg.extractLsb' 0 16)) ∧
  (∀ (x : Sample) (s : State),
    let bm := min x.toInt.natAbs 32635 + 132
    let e := Nat.log2 bm - 7
    let m := bm / 2 ^ (e + 3) % 16
    let sign := if x.toInt < 0 then 1 else 0
    let y : Byte := BitVec.ofNat 8 (255 - (128 * sign + 16 * e + m))
    muOut x = y ∧
    exec (.encode x) s = .next { s with log := s.log ++ [{ command := .encode x, result := .byte y }] })

/-- R45 (decision D5, log 6): the magnitude of every negative sample is its 16-bit negation read as
unsigned; −32768 has 32768. -/
def Obligations.EncodeMagnitudeIsUnsigned : Prop :=
  (∀ x : Sample, x.toInt < 0 → encodeMag0 x = (-x).toNat) ∧
  (∀ x : Sample, encodeMag0 x = x.toInt.natAbs) ∧
  encodeMag0 0x8000 = 32768 ∧ muOut 0x8000 = 0x00 ∧ muOut 0x8000 = muOut (BitVec.ofInt 16 (-32635))

/-- R46: every magnitude above 32635 encodes as 32635 does, with no flag, no failure and no other trace; the
biased magnitude never exceeds 32767; 40000's pattern is another sample. -/
def Obligations.EncodeClampsSilently : Prop :=
  (∀ mag : Nat, clampMagnitude mag = if 32635 < mag then 32635 else mag) ∧
  (∀ x : Sample, encodeBiased x = clampMagnitude (encodeMag0 x) + 132 ∧ encodeBiased x ≤ 32767) ∧
  (∀ (x : Sample) (s : State), 32636 ≤ x.toInt →
    muOut x = muOut (BitVec.ofInt 16 32635) ∧
    exec (.encode x) s = .next { s with log := s.log ++ [{ command := .encode x, result := .byte 0x80 }] }) ∧
  (∀ (x : Sample) (s : State), x.toInt ≤ -32636 →
    muOut x = muOut (BitVec.ofInt 16 (-32635)) ∧
    exec (.encode x) s = .next { s with log := s.log ++ [{ command := .encode x, result := .byte 0x00 }] }) ∧
  (0x9C40 : Sample).toInt = -25536 ∧ muOut 0x9C40 = 0x06

/-- R47 (the specification's own derivation): the scan is the closed form, and its argument
is always in the range where it is. -/
def Obligations.ExponentScanIsTheClosedForm : Prop :=
  (∀ x : Sample, 132 ≤ encodeBiased x ∧ encodeBiased x ≤ 32767) ∧
  (∀ bm, 132 ≤ bm → bm ≤ 32767 →
    encodeExponent bm = Nat.log2 bm - 7 ∧ 7 ≤ Nat.log2 bm ∧ encodeExponent bm ≤ 7 ∧
    bm.testBit (encodeExponent bm + 7) = true ∧
    encodeMantissa bm (encodeExponent bm) = bm / 2 ^ (encodeExponent bm + 3) % 16)

/-- R48 (the specification's own derivation): the magnitudes that encode to given fields, the bands of the exponent,
and the order. -/
def Obligations.EncodeIntervalsAndOrder : Prop :=
  (∀ (x : Sample) (f : MuFields),
    fieldsOfWire (muOut x) = f ↔
      (f.sign = decide (x.toInt < 0) ∧
       (16 + f.mantissa.toNat) * 2 ^ (f.exponent.toNat + 3) ≤ min x.toInt.natAbs 32635 + 132 ∧
       min x.toInt.natAbs 32635 + 132 < (17 + f.mantissa.toNat) * 2 ^ (f.exponent.toNat + 3))) ∧
  (∀ (x : Sample) (e : BitVec 3),
    (fieldsOfWire (muOut x)).exponent = e ↔
      (2 ^ (e.toNat + 7) ≤ min x.toInt.natAbs 32635 + 132 ∧
       min x.toInt.natAbs 32635 + 132 < 2 ^ (e.toNat + 8))) ∧
  (∀ x₁ x₂ : Sample, 0 ≤ x₁.toInt → x₁.toInt ≤ x₂.toInt →
    16 * (fieldsOfWire (muOut x₁)).exponent.toNat + (fieldsOfWire (muOut x₁)).mantissa.toNat ≤
      16 * (fieldsOfWire (muOut x₂)).exponent.toNat + (fieldsOfWire (muOut x₂)).mantissa.toNat)

/-! ### The laws of the codec -/

/-- R49 (the specification's own derivation): the round trip through the byte errs by at most half a step,
reached at each interval's bottom; the clamped samples err below a step; the sign is kept. -/
def Obligations.RoundTripThroughTheByteStaysWithinAStep : Prop :=
  (∀ x : Sample,
    let e := (fieldsOfWire (muOut x)).exponent.toNat
    let d := (linOut (muOut x)).toInt
    (x.toInt.natAbs ≤ 32635 → (d - x.toInt).natAbs ≤ 2 ^ (e + 2)) ∧
    (32636 ≤ x.toInt → d = 32124 ∧ (d - x.toInt).natAbs = x.toInt.natAbs - 32124) ∧
    (x.toInt ≤ -32636 → d = -32124 ∧ (d - x.toInt).natAbs = x.toInt.natAbs - 32124) ∧
    (d - x.toInt).natAbs < 2 ^ (e + 3) ∧
    (d = 0 ∨ (0 < d ↔ 0 < x.toInt)) ∧
    (x.toInt.natAbs ≤ 3 → d = 0)) ∧
  (∀ e, e < 8 → ∀ m, m < 16 → e ≠ 0 ∨ m ≠ 0 → ∀ x : Sample,
    x.toInt.natAbs + 132 = (16 + m) * 2 ^ (e + 3) →
    (fieldsOfWire (muOut x)).exponent.toNat = e ∧ (fieldsOfWire (muOut x)).mantissa.toNat = m ∧
    ((linOut (muOut x)).toInt - x.toInt).natAbs = 2 ^ (e + 2))

/-- R50 (the specification's own derivation): the round trip through the sample, its one exception,
and that ENCODE is onto. -/
def Obligations.RoundTripThroughTheSampleKeepsEveryByteBut0x7F : Prop :=
  (∀ b : Byte, b ≠ 0x7F → muOut (linOut b) = b) ∧
  muOut (linOut 0x7F) = 0xFF ∧
  (∀ x : Sample, muOut x = 0x7F ↔ x.toInt = -1 ∨ x.toInt = -2 ∨ x.toInt = -3) ∧
  (∀ b : Byte, ∃ x : Sample, muOut x = b)

/-! ### The header frames -/

/-- R52: HDR_G711, selected by `op = 0b11` with its count in `arg[31:0]`, gives these 46 bytes on `frame`, completes
from every state, observes them and changes nothing else. -/
def Obligations.HdrG711ObservesTheR52Bytes : Prop :=
  (∀ arg : Word32, decode (0b11#2 ++ arg) = .hdrG711 arg) ∧
  (∀ (n : Word32) (s : State),
    exec (.hdrG711 n) s = .next { s with
      log := s.log ++ [{ command := .hdrG711 n, result := .frame (frameOut s.pcmSampleRate true n) }] } ∧
    let c : Word32 := BitVec.ofNat 32 (n.toNat + 38)
    (frameOut s.pcmSampleRate true n).toList =
      [0x52, 0x49, 0x46, 0x46, c.extractLsb' 0 8, c.extractLsb' 8 8, c.extractLsb' 16 8, c.extractLsb' 24 8] ++
      [0x57, 0x41, 0x56, 0x45, 0x66, 0x6D, 0x74, 0x20] ++
      [0x12, 0x00, 0x00, 0x00, 0x07, 0x00, 0x01, 0x00] ++
      [0x40, 0x1F, 0x00, 0x00, 0x40, 0x1F, 0x00, 0x00] ++
      [0x01, 0x00, 0x08, 0x00, 0x00, 0x00, 0x64, 0x61] ++
      [0x74, 0x61, n.extractLsb' 0 8, n.extractLsb' 8 8, n.extractLsb' 16 8, n.extractLsb' 24 8])

/-- R53: HDR_PCM, selected by `op = 0b10` with its count in `arg[31:0]`, gives these 46 bytes on `frame` at every rate,
completes from every state, observes them and changes nothing else. Bytes 28 to 33 are decision D7 (log 7). -/
def Obligations.HdrPcmObservesTheR53Bytes : Prop :=
  (∀ arg : Word32, decode (0b10#2 ++ arg) = .hdrPcm arg) ∧
  (∀ (n : Word32) (s : State),
    exec (.hdrPcm n) s = .next { s with
      log := s.log ++ [{ command := .hdrPcm n, result := .frame (frameOut s.pcmSampleRate false n) }] } ∧
    let c : Word32 := BitVec.ofNat 32 (n.toNat + 38)
    let r := s.pcmSampleRate
    let q : Word32 := BitVec.ofNat 32 (r.toNat * 2)
    (frameOut s.pcmSampleRate false n).toList =
      [0x52, 0x49, 0x46, 0x46, c.extractLsb' 0 8, c.extractLsb' 8 8, c.extractLsb' 16 8, c.extractLsb' 24 8] ++
      [0x57, 0x41, 0x56, 0x45, 0x66, 0x6D, 0x74, 0x20] ++
      [0x12, 0x00, 0x00, 0x00, 0x01, 0x00, 0x01, 0x00] ++
      [r.extractLsb' 0 8, r.extractLsb' 8 8, r.extractLsb' 16 8, r.extractLsb' 24 8] ++
      [q.extractLsb' 0 8, q.extractLsb' 8 8, q.extractLsb' 16 8, q.extractLsb' 24 8] ++
      [0x02, 0x00, 0x10, 0x00, 0x00, 0x00, 0x64, 0x61] ++
      [0x74, 0x61, n.extractLsb' 0 8, n.extractLsb' 8 8, n.extractLsb' 16 8, n.extractLsb' 24 8])

/-- R36, R58: the constant fields, the format code, the sample width and the data size, read back from both variants at
their offsets of R30. -/
def Obligations.ConstantAndFormatFieldsReadBack : Prop :=
  ∀ r n : Word32,
    let g := (frameOut r true n).toList
    let p := (frameOut r false n).toList
    (memRead g 16 4 = some 18 ∧ memRead p 16 4 = some 18) ∧
    (memRead g 20 2 = some 7 ∧ memRead p 20 2 = some 1) ∧
    (memRead g 22 2 = some 1 ∧ memRead p 22 2 = some 1) ∧
    (memRead g 34 2 = some 8 ∧ memRead p 34 2 = some 16) ∧
    (memRead g 36 2 = some 0 ∧ memRead p 36 2 = some 0) ∧
    (memRead g 42 4 = some n.toNat ∧ memRead p 42 4 = some n.toNat)

/-- R32: the rate fields of both variants. Those of the linear-PCM variant are decisions D6 and D7 (log 1, 7). -/
def Obligations.RateFieldsReadBack : Prop :=
  ∀ r n : Word32,
    let g := (frameOut r true n).toList
    let p := (frameOut r false n).toList
    (memRead g 24 4 = some 8000 ∧ memRead p 24 4 = some r.toNat) ∧
    (memRead g 28 4 = some 8000 ∧ memRead p 28 4 = some (r.toNat * 2 % 2 ^ 32)) ∧
    (memRead g 32 2 = some 1 ∧ memRead p 32 2 = some 2)

/-- R54: the chunk size is the count plus 38 wherever the sum fits its field, the data size is the count, and the two
variants' frames for one count agree outside the format code and offsets 24 to 35. -/
def Obligations.HeaderSizesAndWhereTheVariantsAgree : Prop :=
  (∀ (r n : Word32) (sel : Bool), n.toNat + 38 < 2 ^ 32 →
    memRead (frameOut r sel n).toList 4 4 = some (n.toNat + 38)) ∧
  (∀ (r n : Word32) (sel : Bool), memRead (frameOut r sel n).toList 42 4 = some n.toNat) ∧
  (∀ (r n : Word32) (j : Nat) (hj : j < 46),
    (j < 20 ∨ (22 ≤ j ∧ j < 24) ∨ 36 ≤ j ∨ (r = 8000 ∧ 24 ≤ j ∧ j < 28)) →
    (frameOut r true n)[j] = (frameOut r false n)[j])

/-- R55 (decision D8, log 8): from 0xFFFFFFDA on the chunk size holds the low 32 bits of the sum, while the data size
still holds the count. -/
def Obligations.ChunkSizeWrapsFrom0xFFFFFFDA : Prop :=
  ∀ (r n : Word32) (sel : Bool), 0xFFFFFFDA ≤ n.toNat →
    memRead (frameOut r sel n).toList 4 4 = some (n.toNat + 38 - 2 ^ 32) ∧
    memRead (frameOut r sel n).toList 42 4 = some n.toNat

/-- R57: a frame is complete: its MemWrites leave no byte of what was there before. -/
def Obligations.MarshalOverwritesEveryByte : Prop :=
  ∀ (h : HeaderFields) (f f' : Frame), marshal h f = marshal h f'

/-! ### The host procedures -/

/-- R59: STRIP fails exactly on buffers shorter than 46 bytes, skips exactly 46 bytes of the others whatever they hold,
and uses no operation of the block. That the failure carries the length is decision D15 (log 11). -/
def Obligations.StripSkips46BytesOrFails : Prop :=
  (∀ buf : List Byte, buf.length < 46 → strip buf = .fault (.truncatedInputError buf.length)) ∧
  (∀ vendorBytes rest : List Byte, vendorBytes.length = 46 → strip (vendorBytes ++ rest) = .next rest) ∧
  (∀ buf : List Byte, expansion (.strip buf) = [])

/-- R67, R70: the one failure, its one cause, and that a failing call presents no command to the block; R61, R63:
PCM_TO_G711 has no failure. That the failure carries the length is decision D15 (log 11); that an odd length is no failure
is the reading of conflict C5 (log 18). -/
def Obligations.TruncatedInputIsTheOnlyFailure : Prop :=
  (∀ (rate : Word32) (buf : List Byte) (r : Fault),
    g711ToPcm rate buf = .fault r ↔ buf.length < 46 ∧ r = .truncatedInputError buf.length) ∧
  (∀ buf : List Byte, buf.length < 46 → expansion (.g711ToPcm buf) = []) ∧
  (∀ (buf : List Byte) (factor : Nat) (r : Fault), pcmToG711 buf factor ≠ .fault r)

/-- R60: G711_TO_PCM fails on a buffer shorter than 46 bytes, and otherwise gives this output, by offset, within the
host's duty that `2N` fits the operand. That the failure carries the length is decision D15 (log 11). -/
def Obligations.G711ToPcmOutputByOffset : Prop :=
  (∀ (rate : Word32) (buf : List Byte), buf.length < 46 →
    g711ToPcm rate buf = .fault (.truncatedInputError buf.length)) ∧
  (∀ (rate : Word32) (buf : List Byte), 46 ≤ buf.length → 2 * (buf.length - 46) < 2 ^ 32 →
    ∃ out : List Byte, g711ToPcm rate buf = .next out ∧
      out.length = 46 + 2 * (buf.length - 46) ∧
      out.take 46 = (frameOut rate false (BitVec.ofNat 32 (2 * (buf.length - 46)))).toList ∧
      ∀ (i : Nat) (b : Byte), buf[46 + i]? = some b →
        out[46 + 2 * i]? = some ((linOut b).extractLsb' 0 8) ∧
        out[47 + 2 * i]? = some ((linOut b).extractLsb' 8 8))

/-- R61: the output of PCM_TO_G711, by offset, for every factor from 1 up: sample `k * F` of the input gives byte
`46 + k`; the default factor is 2; factor 0 is refused (decision D13, log 9). -/
def Obligations.PcmToG711OutputByOffset : Prop :=
  (∀ (rate : Word32) (buf : List Byte) (factor : Nat), 1 ≤ factor →
    let count := (buf.length / 2 + (factor - 1)) / factor
    count < 2 ^ 32 →
    ∃ out : List Byte, pcmToG711 buf factor = .next out ∧
      out.length = 46 + count ∧
      out.take 46 = (frameOut rate true (BitVec.ofNat 32 count)).toList ∧
      ∀ k, k < count → ∃ lo hi : Byte,
        buf[2 * (k * factor)]? = some lo ∧ buf[2 * (k * factor) + 1]? = some hi ∧
        out[46 + k]? = some (muOut (BitVec.ofNat 16 (lo.toNat + 256 * hi.toNat)))) ∧
  (∀ buf : List Byte, pcmToG711Default buf = pcmToG711 buf 2) ∧
  (∀ buf : List Byte, pcmToG711 buf 0 = .refused .zeroDownsampleFactor)

/-- R63, in the reading of conflict C5 (log 18): the last byte of an odd-length buffer is ignored, and the procedure
succeeds at every factor from 1 up (R61), within the host's duty that the count fits the operand (R81, log 10). -/
def Obligations.OddLastByteIsIgnored : Prop :=
  ∀ (buf : List Byte) (last : Byte) (factor : Nat), buf.length % 2 = 0 →
    pcmToG711 (buf ++ [last]) factor = pcmToG711 buf factor ∧
    (1 ≤ factor → (buf.length / 2 + (factor - 1)) / factor < 2 ^ 32 →
      ∃ out : List Byte, pcmToG711 (buf ++ [last]) factor = .next out)

/-- R59: no byte of the vendor's prefix influences the output. -/
def Obligations.VendorPrefixInfluencesNothing : Prop :=
  ∀ (rate : Word32) (p q rest : List Byte), p.length = 46 → q.length = 46 →
    g711ToPcm rate (p ++ rest) = g711ToPcm rate (q ++ rest)

/-- R64: each output sample depends on one input sample alone. -/
def Obligations.OutputSamplesAreIndependent : Prop :=
  (∀ (rate : Word32) (buf buf' out out' : List Byte) (i : Nat),
    g711ToPcm rate buf = .next out → g711ToPcm rate buf' = .next out' →
    46 + i < buf.length → buf[46 + i]? = buf'[46 + i]? →
    out[46 + 2 * i]? = out'[46 + 2 * i]? ∧ out[47 + 2 * i]? = out'[47 + 2 * i]?) ∧
  (∀ (buf buf' out out' : List Byte) (factor k : Nat),
    pcmToG711 buf factor = .next out → pcmToG711 buf' factor = .next out' →
    2 * (k * factor) + 1 < buf.length →
    buf[2 * (k * factor)]? = buf'[2 * (k * factor)]? →
    buf[2 * (k * factor) + 1]? = buf'[2 * (k * factor) + 1]? →
    out[46 + k]? = out'[46 + k]?)

/-- R38, R60: G711_TO_PCM's output is what its commands, run on the block from any state, answer, appended in order. -/
def Obligations.G711ToPcmIsItsCommandsRunOnTheBlock : Prop :=
  ∀ (s : State) (buf out : List Byte), g711ToPcm s.pcmSampleRate buf = .next out →
    let cmds := Instr.hdrPcm (BitVec.ofNat 32 (2 * (buf.length - 46))) :: (buf.drop 46).map Instr.decode
    expansion (.g711ToPcm buf) = cmds ∧
    ∃ (t : State) (new : List Transaction),
      runSteps cmds.length (s.withCommands (cmds.map encode)) = .next t ∧
      t.log = s.log ++ new ∧ new.map Transaction.command = cmds ∧
      new.flatMap (fun a => a.result.bytes) = out

/-- R38, R61: PCM_TO_G711's output is what its commands, run on the block from any state, answer, appended in order. -/
def Obligations.PcmToG711IsItsCommandsRunOnTheBlock : Prop :=
  ∀ (s : State) (buf out : List Byte) (factor : Nat), pcmToG711 buf factor = .next out →
    let kept := decimate factor (samplesOf buf)
    let cmds := Instr.hdrG711 (BitVec.ofNat 32 kept.length) :: kept.map Instr.encode
    expansion (.pcmToG711 buf factor) = cmds ∧
    ∃ (t : State) (new : List Transaction),
      runSteps cmds.length (s.withCommands (cmds.map encode)) = .next t ∧
      t.log = s.log ++ new ∧ new.map Transaction.command = cmds ∧
      new.flatMap (fun a => a.result.bytes) = out

/-- R54, R81: within the bound on the count both procedures' files describe their own length. -/
def Obligations.OutputFilesAreWellFormedWithinTheBound : Prop :=
  (∀ (rate : Word32) (buf out : List Byte), g711ToPcm rate buf = .next out →
    PayloadInBounds (2 * (buf.length - 46)) → WellFormedFile out) ∧
  (∀ (buf out : List Byte) (factor : Nat), pcmToG711 buf factor = .next out →
    PayloadInBounds (out.length - 46) → WellFormedFile out)

/-- R31, R49, R59 to R61: a produced G.711 file is stripped exactly, and each sample comes back through the codec. -/
def Obligations.ThereAndBackReturnsEachSampleThroughTheCodec : Prop :=
  ∀ (rate : Word32) (buf out : List Byte), pcmToG711 buf 1 = .next out → 2 * (buf.length / 2) < 2 ^ 32 →
    ∃ back : List Byte, g711ToPcm rate out = .next back ∧
      samplesOf (back.drop 46) = (samplesOf buf).map (fun x => linOut (muOut x))

/-! ### The written notation -/

/-- R37 (decision D14, log 16): a written line is read back as the line it was written from. -/
def Obligations.WrittenLineIsReadBack : Prop :=
  ∀ l : SourceLine, l.wellFormed = true → parseLine (lineText l) = some l

/-- R37 (decision D14, log 16): every operation has a line, and both spellings of a sample name the same operation. -/
def Obligations.EveryInstructionHasALineAndSpellingsAgree : Prop :=
  (∀ i : Instr, (disassemble i).wellFormed = true ∧ assemble (disassemble i) = some i) ∧
  (∀ x : Sample,
    assemble { mnemonic := .encode, operand := .hex 4 x.toNat } = some (.encode x) ∧
    assemble { mnemonic := .encode, operand := .decimal x.toInt } = some (.encode x))
end

