-- ==== Sys2Proof/Laws/State.lean ====
section
/-! SUPPORT. One lemma per field of State for each of its updates, so that no later proof unfolds a record update. -/

namespace Sys2Proof.Machine

variable (s : State) (i : Instr) (r : Result) (cs : List CmdWord) (rate : Word32)

@[simp] theorem record_pcmSampleRate : (s.record i r).pcmSampleRate = s.pcmSampleRate := rfl
@[simp] theorem record_commands : (s.record i r).commands = s.commands := rfl
@[simp] theorem record_log : (s.record i r).log = s.log ++ [{ command := i, result := r }] := rfl

@[simp] theorem withCommands_pcmSampleRate : (s.withCommands cs).pcmSampleRate = s.pcmSampleRate := rfl
@[simp] theorem withCommands_commands : (s.withCommands cs).commands = cs := rfl
@[simp] theorem withCommands_log : (s.withCommands cs).log = s.log := rfl

@[simp] theorem powerUp_pcmSampleRate : (State.powerUp rate).pcmSampleRate = rate := rfl
@[simp] theorem powerUp_commands : (State.powerUp rate).commands = [] := rfl
@[simp] theorem powerUp_log : (State.powerUp rate).log = [] := rfl

@[simp] theorem idle_eq : idle s = s := rfl
@[simp] theorem systemReset_eq : systemReset s = s := rfl

end Sys2Proof.Machine
end

