-- ==== Sys2Proof/Laws/Codec.lean ====
section
/-! SUPPORT. The forms of a μ-law byte, the clamp, and the ports of the codec units, each said once. -/

namespace Sys2Proof.Machine

@[simp] theorem fieldsOf_fieldForm (f : MuFields) : fieldsOf (fieldForm f) = f := by
  obtain ⟨s, e, m⟩ := f
  have key : ∀ (s : Bool) (e : BitVec 3) (m : BitVec 4),
      (fieldsOf (fieldForm ⟨s, e, m⟩)).sign = s ∧ (fieldsOf (fieldForm ⟨s, e, m⟩)).exponent = e ∧
      (fieldsOf (fieldForm ⟨s, e, m⟩)).mantissa = m := by decide
  obtain ⟨h1, h2, h3⟩ := key s e m
  cases h : fieldsOf (fieldForm ⟨s, e, m⟩)
  simp_all

/-- The fields of an assembled wire byte are the fields it was assembled from (R28). -/
@[simp] theorem fieldsOfWire_wireOfFields (f : MuFields) : fieldsOfWire (wireOfFields f) = f := by
  simp [fieldsOfWire, wireOfFields]

/-- A wire byte is the one assembled from its fields (R28). -/
@[simp] theorem wireOfFields_fieldsOfWire : ∀ b : Byte, wireOfFields (fieldsOfWire b) = b := by decide

theorem wireOfFields_injective {f g : MuFields} (h : wireOfFields f = wireOfFields g) : f = g := by
  have := congrArg fieldsOfWire h
  simpa using this

@[simp] theorem linOut_eq (b : Byte) : linOut b = muDecode b := rfl
@[simp] theorem muOut_eq (x : Sample) : muOut x = muEncode x := rfl

/-- The fields of ENCODE's byte are those its steps compute. -/
@[simp] theorem fieldsOfWire_muEncode (x : Sample) : fieldsOfWire (muEncode x) = encodeFields x := by
  simp [muEncode]

/-- The sign step, as a comparison of the sample's value. -/
theorem encodeSign_eq (x : Sample) : encodeSign x = decide (x.toInt < 0) := by
  rw [encodeSign, ← BitVec.msb_eq_toInt, BitVec.msb_eq_getLsbD_last]

/-- The last test of the scan is not made: at exponent 0 the scan answers 0. -/
@[simp] theorem exponentScan_zero (bm mask : Nat) : exponentScan bm 0 mask = 0 := rfl

/-- One test of the scan. -/
theorem exponentScan_succ (bm e mask : Nat) :
    exponentScan bm (e + 1) mask = if bm &&& mask = 0 then exponentScan bm e (mask >>> 1) else e + 1 := rfl

/-- The scan never answers more than the exponent it starts from. -/
theorem exponentScan_le (bm : Nat) : ∀ e mask, exponentScan bm e mask ≤ e
  | 0, _ => Nat.le_refl 0
  | e + 1, mask => by
    rw [exponentScan_succ]
    split
    · exact Nat.le_succ_of_le (exponentScan_le bm e _)
    · exact Nat.le_refl _

end Sys2Proof.Machine
end

