-- ==== Sys2Proof/Laws/Ops.lean ====
section
/-! SUPPORT. What each shared operation of Machine/Ops.lean and each byte sequence of Machine/Operands.lean does, said once. -/

namespace Sys2Proof.Machine

/-! ### Presenting a command -/

@[simp] theorem takeCommand_nil {s : State} (h : s.commands = []) : takeCommand s = none := by
  simp [takeCommand, h]

@[simp] theorem takeCommand_cons {s : State} {c : CmdWord} {rest : List CmdWord} (h : s.commands = c :: rest) :
    takeCommand s = some (c, { s with commands := rest }) := by
  simp [takeCommand, h]

/-- All that taking a command can do. -/
theorem takeCommand_cases (s : State) :
    (s.commands = [] ∧ takeCommand s = none) ∨
    ∃ c rest, s.commands = c :: rest ∧ takeCommand s = some (c, { s with commands := rest }) := by
  rcases h : s.commands with _ | ⟨c, rest⟩
  · exact .inl ⟨rfl, takeCommand_nil h⟩
  · exact .inr ⟨c, rest, rfl, takeCommand_cons h⟩

/-! ### MemWrite -/

/-- Every byte of a frame after a MemWrite: the written bytes where it wrote, the old byte elsewhere. -/
theorem memWrite_get (bs : List Byte) : ∀ (f : Frame) (addr j : Nat) (hj : j < 46),
    (memWrite f addr bs)[j] = if h : addr ≤ j ∧ j - addr < bs.length then bs[j - addr] else f[j] := by
  induction bs with
  | nil => intro f addr j hj; simp [memWrite]
  | cons b bs ih =>
    intro f addr j hj
    rw [memWrite, ih]
    by_cases h : addr + 1 ≤ j
    · have hsub : j - addr = (j - (addr + 1)) + 1 := by omega
      have hne : addr ≠ j := by omega
      by_cases h2 : j - (addr + 1) < bs.length
      · rw [dif_pos ⟨h, h2⟩, dif_pos (by rw [List.length_cons]; omega)]
        simp only [hsub, List.getElem_cons_succ]
      · rw [dif_neg (by omega), dif_neg (by rw [List.length_cons]; omega)]
        simp [hne]
    · rw [dif_neg (by omega)]
      by_cases h3 : addr = j
      · subst h3; simp
      · rw [dif_neg (by omega)]
        simp [h3]

/-- Read after write. -/
theorem memWrite_get_inside (f : Frame) (addr k : Nat) (bs : List Byte) (hk : k < bs.length) (hb : addr + k < 46) :
    (memWrite f addr bs)[addr + k] = bs[k] := by
  rw [memWrite_get, dif_pos (by omega)]
  simp

/-- A write leaves every other byte alone. -/
theorem memWrite_get_outside (f : Frame) (addr j : Nat) (bs : List Byte) (hj : j < 46)
    (h : j < addr ∨ addr + bs.length ≤ j) : (memWrite f addr bs)[j] = f[j] := by
  rw [memWrite_get, dif_neg (by omega)]

theorem memWrite_get? (f : Frame) (addr j : Nat) (bs : List Byte) :
    (memWrite f addr bs).toList[j]? =
      if addr ≤ j ∧ j - addr < bs.length ∧ j < 46 then bs[j - addr]? else f.toList[j]? := by
  by_cases hj : j < 46
  · have hl : ∀ g : Frame, g.toList[j]? = some g[j] := fun g => by simp [hj]
    rw [hl, hl, memWrite_get]
    simp only [hj, and_true]
    split
    · next h => rw [List.getElem?_eq_getElem h.2]
    · rfl
  · rw [if_neg (by omega), List.getElem?_eq_none (by simpa using hj), List.getElem?_eq_none (by simpa using hj)]

/-- Writing where a written part ends makes the written part longer. -/
theorem memWrite_take (f : Frame) (done bs : List Byte) (hd : f.toList.take done.length = done)
    (hb : done.length + bs.length ≤ 46) :
    (memWrite f done.length bs).toList.take (done ++ bs).length = done ++ bs := by
  apply List.ext_getElem?
  intro j
  rw [List.getElem?_take, memWrite_get?]
  by_cases h1 : j < done.length
  · have h2 : f.toList[j]? = done[j]? := by rw [← hd, List.getElem?_take, if_pos (by simpa [hd] using h1)]
    rw [if_pos (by simp; omega), if_neg (by omega), h2, List.getElem?_append_left h1]
  · by_cases h3 : j - done.length < bs.length
    · rw [if_pos (by simp; omega), if_pos (by omega), List.getElem?_append_right (by omega)]
    · rw [if_neg (by simp; omega), List.getElem?_eq_none (by simp; omega)]

/-! ### Little-endian sequences -/

@[simp] theorem le16_length (v : BitVec 16) : (le16 v).length = 2 := rfl
@[simp] theorem le32_length (v : BitVec 32) : (le32 v).length = 4 := rfl

theorem leNat_le16 (v : BitVec 16) : leNat (le16 v) = v.toNat := by
  simp only [le16, leNat, BitVec.extractLsb'_toNat, Nat.shiftRight_eq_div_pow]
  have := v.isLt
  omega

theorem leNat_le32 (v : BitVec 32) : leNat (le32 v) = v.toNat := by
  simp only [le32, leNat, BitVec.extractLsb'_toNat, Nat.shiftRight_eq_div_pow]
  have := v.isLt
  omega

theorem leNat_append (xs ys : List Byte) : leNat (xs ++ ys) = leNat xs + 256 ^ xs.length * leNat ys := by
  induction xs with
  | nil => simp [leNat]
  | cons x xs ih => simp only [List.cons_append, leNat, ih, List.length_cons, Nat.pow_succ]; ring

theorem leNat_lt (xs : List Byte) : leNat xs < 256 ^ xs.length := by
  induction xs with
  | nil => simp [leNat]
  | cons x xs ih =>
    have := x.isLt
    simp only [leNat, List.length_cons, Nat.pow_succ]
    omega

/-- The sample of a sample's two bytes is the sample. -/
theorem sampleOfBytes_le16 (v : Sample) : sampleOfBytes (v.extractLsb' 0 8) (v.extractLsb' 8 8) = v := by
  have h := leNat_le16 v
  simp only [le16, leNat] at h
  apply BitVec.eq_of_toNat_eq
  have := v.isLt
  simp only [sampleOfBytes, BitVec.toNat_ofNat]
  omega

/-! ### MemRead -/

theorem memRead_of_le {buf : List Byte} {addr n : Nat} (h : addr + n ≤ buf.length) :
    memRead buf addr n = some (leNat ((buf.drop addr).take n)) := by
  simp [memRead, h]

/-- Reading the bytes that stand between two known parts. -/
theorem memRead_append (xs ys zs : List Byte) :
    memRead (xs ++ ys ++ zs) xs.length ys.length = some (leNat ys) := by
  rw [memRead_of_le (by simp)]
  simp

/-! ### Samples and decimation -/

theorem samplesOf_length : ∀ buf : List Byte, (samplesOf buf).length = buf.length / 2
  | [] => rfl
  | [_] => by simp [samplesOf]
  | _ :: _ :: rest => by simp only [samplesOf, List.length_cons, samplesOf_length rest]; omega

/-- Sample `j` is made of the bytes at `2j` and `2j + 1` (R61). -/
theorem samplesOf_get : ∀ (buf : List Byte) (j : Nat) (h : 2 * j + 1 < buf.length),
    (samplesOf buf)[j]? = some (sampleOfBytes buf[2 * j] buf[2 * j + 1])
  | [], _, h => by simp at h
  | [_], _, h => by simp at h
  | _ :: _ :: rest, 0, _ => by simp [samplesOf]
  | a :: b :: rest, j + 1, h => by
    have h' : 2 * j + 1 < rest.length := by simp only [List.length_cons] at h; omega
    have := samplesOf_get rest j h'
    simpa [samplesOf, Nat.mul_add] using this

/-- Serialised samples are read back (R18, R29). -/
theorem samplesOf_flatMap_le16 (xs : List Sample) : samplesOf (xs.flatMap le16) = xs := by
  induction xs with
  | nil => rfl
  | cons x xs ih => simp [le16, samplesOf, sampleOfBytes_le16] at ih ⊢; exact ih

/-- The odd last byte is part of no sample (R63). -/
theorem samplesOf_append_odd : ∀ (buf : List Byte) (last : Byte), buf.length % 2 = 0 →
    samplesOf (buf ++ [last]) = samplesOf buf
  | [], _, _ => rfl
  | [_], _, h => by simp at h
  | a :: b :: rest, last, h => by
    have h' : rest.length % 2 = 0 := by simp only [List.length_cons] at h; omega
    simp [samplesOf, samplesOf_append_odd rest last h']

theorem decimateFrom_get (factor : Nat) (hf : 1 ≤ factor) : ∀ (xs : List Sample) (skip k : Nat),
    (decimateFrom factor skip xs)[k]? = xs[skip + k * factor]?
  | [], _, _ => by simp [decimateFrom]
  | x :: xs, skip + 1, k => by
    rw [decimateFrom, decimateFrom_get factor hf xs skip k]
    simp [show skip + 1 + k * factor = (skip + k * factor) + 1 by omega]
  | x :: xs, 0, 0 => by simp [decimateFrom]
  | x :: xs, 0, k + 1 => by
    rw [decimateFrom, List.getElem?_cons_succ, decimateFrom_get factor hf xs (factor - 1) k]
    simp [show 0 + (k + 1) * factor = (factor - 1 + k * factor) + 1 by rw [Nat.succ_mul]; omega]

/-- The retained samples are those at indices `0, F, 2F, …` (R62). -/
theorem decimate_get (factor : Nat) (hf : 1 ≤ factor) (xs : List Sample) (k : Nat) :
    (decimate factor xs)[k]? = xs[k * factor]? := by
  simp [decimate, decimateFrom_get factor hf]

/-- Index `k` is retained exactly when it lies below `ceil(M / F)` (R62). -/
theorem lt_ceilDiv_iff (m factor k : Nat) (hf : 1 ≤ factor) : k < ceilDiv m factor ↔ k * factor < m := by
  rw [ceilDiv, Nat.lt_div_iff_mul_lt (by omega)]
  have : factor * k = k * factor := Nat.mul_comm _ _
  omega

/-- The count of the retained samples (R61). -/
theorem decimate_length (factor : Nat) (hf : 1 ≤ factor) (xs : List Sample) :
    (decimate factor xs).length = ceilDiv xs.length factor := by
  have key : ∀ k, k < (decimate factor xs).length ↔ k < ceilDiv xs.length factor := by
    intro k
    rw [lt_ceilDiv_iff _ _ _ hf, ← not_le, ← not_le, ← List.getElem?_eq_none_iff, ← List.getElem?_eq_none_iff,
      decimate_get factor hf]
  have h1 := key (decimate factor xs).length
  have h2 := key (ceilDiv xs.length factor)
  omega

/-- Factor 1 retains every sample (R61). -/
theorem decimate_one (xs : List Sample) : decimate 1 xs = xs := by
  apply List.ext_getElem?
  intro k
  simp [decimate_get 1 (by omega)]

end Sys2Proof.Machine
end

