-- ==== Sys2Proof/Laws/Marshal.lean ====
section
/-! SUPPORT. The one lemma about the MemWrite sequence of rules R52 and R53: the frame it leaves, part by part. -/

namespace Sys2Proof.Machine

/-- The parts of a header frame in offset order (R30). -/
def headerParts (h : HeaderFields) : List Byte :=
  tagRiff ++ le32 h.chunkSize ++ tagWave ++ tagFmt ++ le32 h.fmtSize ++ le16 h.formatCode ++ le16 h.channels ++
  le32 h.sampleRate ++ le32 h.byteRate ++ le16 h.blockAlign ++ le16 h.bitsPerSample ++ le16 h.extensionSize ++
  tagData ++ le32 h.dataSize

@[simp] theorem headerParts_length (h : HeaderFields) : (headerParts h).length = 46 := rfl

@[simp] theorem frame_toList_length (f : Frame) : f.toList.length = 46 := by simp

/-- What the MemWrite sequence leaves: the header's parts in offset order, and nothing of the frame it began from. -/
theorem marshal_toList (h : HeaderFields) (f : Frame) : (marshal h f).toList = headerParts h := by
  have h0 : f.toList.take ([] : List Byte).length = [] := rfl
  have h1 := memWrite_take _ _ tagRiff h0 (by decide)
  have h2 := memWrite_take _ _ (le32 h.chunkSize) h1 (by simp [tagRiff])
  have h3 := memWrite_take _ _ tagWave h2 (by simp [tagRiff, tagWave])
  have h4 := memWrite_take _ _ tagFmt h3 (by simp [tagRiff, tagWave, tagFmt])
  have h5 := memWrite_take _ _ (le32 h.fmtSize) h4 (by simp [tagRiff, tagWave, tagFmt])
  have h6 := memWrite_take _ _ (le16 h.formatCode) h5 (by simp [tagRiff, tagWave, tagFmt])
  have h7 := memWrite_take _ _ (le16 h.channels) h6 (by simp [tagRiff, tagWave, tagFmt])
  have h8 := memWrite_take _ _ (le32 h.sampleRate) h7 (by simp [tagRiff, tagWave, tagFmt])
  have h9 := memWrite_take _ _ (le32 h.byteRate) h8 (by simp [tagRiff, tagWave, tagFmt])
  have h10 := memWrite_take _ _ (le16 h.blockAlign) h9 (by simp [tagRiff, tagWave, tagFmt])
  have h11 := memWrite_take _ _ (le16 h.bitsPerSample) h10 (by simp [tagRiff, tagWave, tagFmt])
  have h12 := memWrite_take _ _ (le16 h.extensionSize) h11 (by simp [tagRiff, tagWave, tagFmt])
  have h13 := memWrite_take _ _ tagData h12 (by simp [tagRiff, tagWave, tagFmt, tagData])
  have h14 := memWrite_take _ _ (le32 h.dataSize) h13 (by simp [tagRiff, tagWave, tagFmt, tagData])
  rw [List.take_of_length_le (by simp [tagRiff, tagWave, tagFmt, tagData])] at h14
  exact h14

@[simp] theorem hdrG711Frame_toList (n : Word32) : (hdrG711Frame n).toList = headerParts (g711Fields n) :=
  marshal_toList _ _

@[simp] theorem hdrPcmFrame_toList (r n : Word32) : (hdrPcmFrame r n).toList = headerParts (pcmFields r n) :=
  marshal_toList _ _

@[simp] theorem frameOut_true (rate n : Word32) : frameOut rate true n = hdrG711Frame n := rfl
@[simp] theorem frameOut_false (rate n : Word32) : frameOut rate false n = hdrPcmFrame rate n := rfl

/-! ### Each field at its offset of R30 -/

@[simp] theorem memRead_chunkSize (h : HeaderFields) : memRead (headerParts h) 4 4 = some h.chunkSize.toNat := by
  rw [memRead_of_le (by simp), ← leNat_le32]; rfl

@[simp] theorem memRead_fmtSize (h : HeaderFields) : memRead (headerParts h) 16 4 = some h.fmtSize.toNat := by
  rw [memRead_of_le (by simp), ← leNat_le32]; rfl

@[simp] theorem memRead_formatCode (h : HeaderFields) : memRead (headerParts h) 20 2 = some h.formatCode.toNat := by
  rw [memRead_of_le (by simp), ← leNat_le16]; rfl

@[simp] theorem memRead_channels (h : HeaderFields) : memRead (headerParts h) 22 2 = some h.channels.toNat := by
  rw [memRead_of_le (by simp), ← leNat_le16]; rfl

@[simp] theorem memRead_sampleRate (h : HeaderFields) : memRead (headerParts h) 24 4 = some h.sampleRate.toNat := by
  rw [memRead_of_le (by simp), ← leNat_le32]; rfl

@[simp] theorem memRead_byteRate (h : HeaderFields) : memRead (headerParts h) 28 4 = some h.byteRate.toNat := by
  rw [memRead_of_le (by simp), ← leNat_le32]; rfl

@[simp] theorem memRead_blockAlign (h : HeaderFields) : memRead (headerParts h) 32 2 = some h.blockAlign.toNat := by
  rw [memRead_of_le (by simp), ← leNat_le16]; rfl

@[simp] theorem memRead_bitsPerSample (h : HeaderFields) : memRead (headerParts h) 34 2 = some h.bitsPerSample.toNat := by
  rw [memRead_of_le (by simp), ← leNat_le16]; rfl

@[simp] theorem memRead_extensionSize (h : HeaderFields) : memRead (headerParts h) 36 2 = some h.extensionSize.toNat := by
  rw [memRead_of_le (by simp), ← leNat_le16]; rfl

@[simp] theorem memRead_dataSize (h : HeaderFields) : memRead (headerParts h) 42 4 = some h.dataSize.toNat := by
  rw [memRead_of_le (by simp), ← leNat_le32]; rfl

/-! ### The frame's ranges, for comparing two frames -/

theorem headerParts_take20 (h : HeaderFields) :
    ((headerParts h).drop 0).take 20 = tagRiff ++ le32 h.chunkSize ++ tagWave ++ tagFmt ++ le32 h.fmtSize := rfl

theorem headerParts_formatCode (h : HeaderFields) : ((headerParts h).drop 20).take 2 = le16 h.formatCode := rfl

theorem headerParts_channels (h : HeaderFields) : ((headerParts h).drop 22).take 2 = le16 h.channels := rfl

theorem headerParts_sampleRate (h : HeaderFields) : ((headerParts h).drop 24).take 4 = le32 h.sampleRate := rfl

theorem headerParts_blockAlign (h : HeaderFields) :
    ((headerParts h).drop 32).take 4 = le16 h.blockAlign ++ le16 h.bitsPerSample := rfl

theorem headerParts_drop36 (h : HeaderFields) :
    ((headerParts h).drop 36).take 10 = le16 h.extensionSize ++ tagData ++ le32 h.dataSize := rfl

/-- Two frames that agree on a range of their byte lists agree at each offset of it. -/
theorem frame_range_eq (f g : Frame) (a n : Nat) (h : (f.toList.drop a).take n = (g.toList.drop a).take n)
    (j : Nat) (hj : j < 46) (h1 : a ≤ j) (h2 : j < a + n) : f[j] = g[j] := by
  have h3 := congrArg (fun l : List Byte => l[j - a]?) h
  simp only [List.getElem?_take, List.getElem?_drop, if_pos (show j - a < n by omega),
    show a + (j - a) = j by omega] at h3
  simpa [hj] using h3

end Sys2Proof.Machine
end

