-- ==== Sys2Proof/Laws/PerInstr.lean ====
section
/-! SUPPORT. The family of statements about every operation as syntax, one lemma per constructor. TableRow: the word of an
operation is one of its row's words, and its ignored bits are 0 (30_encoding.md rules R33, R34). -/

namespace Sys2Proof.Laws.TableRow

/-- The row of the opcode table with the operation's mnemonic matches its word, and the word has no ignored bit set. -/
def Statement (i : Instr) : Prop :=
  (∀ r ∈ opcodeTable, r.mnemonic = i.mnemonic → r.matchesWord (Sys2Proof.encode i) = true) ∧
  Sys2Proof.encode i &&& significantMask i.mnemonic = Sys2Proof.encode i

/-- Two 34-bit words are equal when their parts above and below bit 32 are. -/
theorem append_and (op : BitVec 2) (arg : BitVec 32) (m₁ : BitVec 2) (m₂ : BitVec 32) :
    (op ++ arg) &&& (m₁ ++ m₂) = (op &&& m₁) ++ (arg &&& m₂) := by
  ext k
  simp only [BitVec.getElem_and, BitVec.getElem_append]
  split <;> rfl

theorem setWidth_and_mask (w : Nat) (b : BitVec w) (m : BitVec 32)
    (hm : ∀ k, k < w → m.getLsbD k = true) : BitVec.setWidth 32 b &&& m = BitVec.setWidth 32 b := by
  ext k hk
  simp only [BitVec.getElem_and, BitVec.getElem_setWidth]
  by_cases h : k < w
  · rw [← BitVec.getLsbD_eq_getElem, hm k h, Bool.and_true]
  · simp [BitVec.getLsbD_of_ge b k (by omega)]

theorem row_matches (op : BitVec 2) (arg : BitVec 32) : (op ++ arg) &&& 0x300000000#34 = op ++ 0#32 := by
  have h := append_and op arg 0b11#2 0#32
  rw [show (0b11#2 : BitVec 2) ++ (0#32 : BitVec 32) = 0x300000000#34 by decide] at h
  rw [h, BitVec.and_zero]
  rw [show op &&& 0b11#2 = op from BitVec.and_allOnes]

theorem decode (b : Byte) : Statement (.decode b) := by
  refine ⟨?_, ?_⟩
  · simp [opcodeTable, Instr.mnemonic, OpcodeRow.matchesWord, Sys2Proof.encode, row_matches, Instr.op]
  · have h := append_and 0b00#2 (BitVec.setWidth 32 b) 0b11#2 0xFF#32
    rw [setWidth_and_mask 8 b 0xFF#32 (by decide)] at h
    simpa [Sys2Proof.encode, significantMask, Instr.mnemonic, Instr.op, Instr.arg] using h

theorem encode (x : Sample) : Statement (.encode x) := by
  refine ⟨?_, ?_⟩
  · simp [opcodeTable, Instr.mnemonic, OpcodeRow.matchesWord, Sys2Proof.encode, row_matches, Instr.op]
  · have h := append_and 0b01#2 (BitVec.setWidth 32 x) 0b11#2 0xFFFF#32
    rw [setWidth_and_mask 16 x 0xFFFF#32 (by decide)] at h
    simpa [Sys2Proof.encode, significantMask, Instr.mnemonic, Instr.op, Instr.arg] using h

theorem hdrPcm (n : Word32) : Statement (.hdrPcm n) := by
  refine ⟨?_, ?_⟩
  · simp [opcodeTable, Instr.mnemonic, OpcodeRow.matchesWord, Sys2Proof.encode, row_matches, Instr.op]
  · exact BitVec.and_allOnes

theorem hdrG711 (n : Word32) : Statement (.hdrG711 n) := by
  refine ⟨?_, ?_⟩
  · simp [opcodeTable, Instr.mnemonic, OpcodeRow.matchesWord, Sys2Proof.encode, row_matches, Instr.op]
  · exact BitVec.and_allOnes

end Sys2Proof.Laws.TableRow
end

