-- ==== Sys2Proof/Laws/Pipeline.lean ====
section
/-! SUPPORT. All that each host procedure can answer (43_pipeline_host.md rules R59 to R61). -/

namespace Sys2Proof.Machine

theorem strip_cases (buf : List Byte) :
    (buf.length < 46 ∧ strip buf = .fault (.truncatedInputError buf.length)) ∨
    (46 ≤ buf.length ∧ strip buf = .next (buf.drop 46)) := by
  by_cases h : buf.length < 46
  · exact .inl ⟨h, by simp [strip, h]⟩
  · exact .inr ⟨by omega, by simp [strip, h]⟩

theorem g711ToPcm_cases (rate : Word32) (buf : List Byte) :
    (buf.length < 46 ∧ g711ToPcm rate buf = .fault (.truncatedInputError buf.length) ∧ g711ToPcmCommands buf = []) ∨
    (46 ≤ buf.length ∧ 2 * (buf.length - 46) < 2 ^ 32 ∧ g711ToPcm rate buf = .next (pcmFile rate (buf.drop 46)) ∧
      g711ToPcmCommands buf = .hdrPcm (trunc32 (2 * (buf.length - 46))) :: (buf.drop 46).map Instr.decode) ∨
    (46 ≤ buf.length ∧ 2 ^ 32 ≤ 2 * (buf.length - 46) ∧ g711ToPcmCommands buf = [] ∧
      g711ToPcm rate buf = .refused (.payloadCountTooLarge (2 * (buf.length - 46)))) := by
  rcases strip_cases buf with ⟨h, hs⟩ | ⟨h, hs⟩
  · exact .inl ⟨h, by simp [g711ToPcm, hs], by simp [g711ToPcmCommands, hs]⟩
  · by_cases hN : 2 * (buf.length - 46) < 2 ^ 32
    · refine .inr (.inl ⟨h, hN, ?_, ?_⟩)
      · simp only [g711ToPcm, hs, List.length_drop, if_pos hN]
      · simp only [g711ToPcmCommands, hs, List.length_drop, if_pos hN]
    · refine .inr (.inr ⟨h, by omega, ?_, ?_⟩)
      · simp only [g711ToPcmCommands, hs, List.length_drop, if_neg hN]
      · simp only [g711ToPcm, hs, List.length_drop, if_neg hN]

theorem pcmToG711_cases (buf : List Byte) (factor : Nat) :
    (factor = 0 ∧ pcmToG711 buf factor = .refused .zeroDownsampleFactor) ∨
    (1 ≤ factor ∧ (decimate factor (samplesOf buf)).length < 2 ^ 32 ∧
      pcmToG711 buf factor = .next (g711File (decimate factor (samplesOf buf))) ∧
      pcmToG711Commands buf factor = .hdrG711 (trunc32 (decimate factor (samplesOf buf)).length) ::
        (decimate factor (samplesOf buf)).map Instr.encode) ∨
    (1 ≤ factor ∧ 2 ^ 32 ≤ (decimate factor (samplesOf buf)).length ∧
      pcmToG711 buf factor = .refused (.payloadCountTooLarge (decimate factor (samplesOf buf)).length)) := by
  by_cases hf : factor = 0
  · exact .inl ⟨hf, by simp [pcmToG711, hf]⟩
  · by_cases hN : (decimate factor (samplesOf buf)).length < 2 ^ 32
    · exact .inr (.inl ⟨by omega, hN, by simp only [pcmToG711, if_neg hf, if_pos hN],
        by simp only [pcmToG711Commands, if_neg hf, if_pos hN]⟩)
    · exact .inr (.inr ⟨by omega, by omega, by simp only [pcmToG711, if_neg hf, if_neg hN]⟩)

end Sys2Proof.Machine
end

