-- ==== Sys2Proof/Laws/Step.lean ====
section
/-! SUPPORT. What the four meanings, exec, a step and a run can do, said once. -/

namespace Sys2Proof.Machine

/-- The result each meaning records. -/
def resultOf (rate : Word32) : Instr → Result
  | .decode b => .sample (muDecode b)
  | .encode x => .byte (muEncode x)
  | .hdrPcm n => .frame (hdrPcmFrame rate n)
  | .hdrG711 n => .frame (hdrG711Frame n)

@[simp] theorem execDecode_eq (b : Byte) (s : State) :
    execDecode b s = .next (s.record (.decode b) (resultOf s.pcmSampleRate (.decode b))) := rfl
@[simp] theorem execEncode_eq (x : Sample) (s : State) :
    execEncode x s = .next (s.record (.encode x) (resultOf s.pcmSampleRate (.encode x))) := rfl
@[simp] theorem execHdrPcm_eq (n : Word32) (s : State) :
    execHdrPcm n s = .next (s.record (.hdrPcm n) (resultOf s.pcmSampleRate (.hdrPcm n))) := rfl
@[simp] theorem execHdrG711_eq (n : Word32) (s : State) :
    execHdrG711 n s = .next (s.record (.hdrG711 n) (resultOf s.pcmSampleRate (.hdrG711 n))) := rfl

/-- All that an operation does: its result is recorded. -/
theorem exec_eq_record (i : Instr) (s : State) : exec i s = .next (s.record i (resultOf s.pcmSampleRate i)) := by
  cases i <;> rfl

/-- All that a step that answers a next state can have done. -/
theorem step_cases {s t : State} (h : step s = .next t) :
    (s.commands = [] ∧ t = s) ∨
    ∃ c rest, s.commands = c :: rest ∧
      t = ({ s with commands := rest } : State).record (decode c) (resultOf s.pcmSampleRate (decode c)) := by
  rcases takeCommand_cases s with ⟨hc, ht⟩ | ⟨c, rest, hc, ht⟩
  · rw [step, ht] at h
    exact .inl ⟨hc, by simpa [idle] using h.symm⟩
  · rw [step, ht] at h
    refine .inr ⟨c, rest, hc, ?_⟩
    simpa [exec_eq_record] using h.symm

/-- All that a transaction of instance `k` that answers next can have done: the step of that instance's own state. -/
theorem stepInstance_cases {k : Nat} {sys sys' : List State} (h : stepInstance k sys = .next sys') :
    ∃ s t, sys[k]? = some s ∧ step s = .next t ∧ sys' = sys.set k t := by
  unfold stepInstance at h
  split at h
  · cases h
  · rename_i s hs
    split at h <;> cases h
    exact ⟨s, _, hs, ‹_›, rfl⟩

/-- One more step of a run. -/
theorem runSteps_succ (k : Nat) (s : State) :
    runSteps (k + 1) s =
      match step s with
      | .next t => runSteps k t
      | .fault r => .fault r
      | .refused r => .refused r := by
  simp only [runSteps, Host.Core.run, Sys2Proof.core]
  cases step s <;> rfl

@[simp] theorem runSteps_zero (s : State) : runSteps 0 s = .next s := rfl

@[simp] theorem withFetchWord_pcmSampleRate (s : State) (nbits w : Nat) :
    (s.withFetchWord nbits w).pcmSampleRate = s.pcmSampleRate := rfl
@[simp] theorem withFetchWord_log (s : State) (nbits w : Nat) : (s.withFetchWord nbits w).log = s.log := rfl

end Sys2Proof.Machine
end

