-- ==== Sys2Proof/Tests/Slice0.lean ====
section
/-! SUPPORT. Tests of single operations and procedures on values the specification prints (95_test_vectors.md; the section
or program is named at each group), smoke tests of the well-formedness checks, and for each statement of the provers that
has hypotheses a state and operands that meet them. -/

namespace Sys2Proof.Tests

open Sys2Proof Sys2Proof.Machine

/-- The next value of an outcome, for comparison. -/
def nextOf {σ φ ρ : Type} : Host.Outcome σ φ ρ → Option σ
  | .next s => some s
  | .fault _ => none
  | .refused _ => none

/-- The result a command word gives as the first one after reset. -/
def firstResult (w : Nat) : Option Result :=
  match step (State.reset.withFetchWord 40 w) with
  | .next t => t.log.getLast?.map Transaction.result
  | .fault _ => none
  | .refused _ => none

/-- The bytes a command word gives as the first one after power-up at a rate. -/
def firstBytes (rate : Word32) (w : Nat) : Option (List Byte) :=
  match step ((State.powerUp rate).withFetchWord 40 w) with
  | .next t => t.log.getLast?.map (fun a => a.result.bytes)
  | .fault _ => none
  | .refused _ => none

/-- A vendor prefix: the bytes 0x00 to 0x2D of program P1. -/
def vendorPrefix : List Byte := (List.range 46).map (BitVec.ofNat 8)

/-! ### Command words, bit by bit from R33's patterns -/

theorem test_decode_word_bits :
    decode 0b00000000000000000000000000_10100101#34 = .decode 0xA5 := by decide
theorem test_decode_word_ignored_bits :
    decode 0b00111111111111111111111111_10100101#34 = .decode 0xA5 := by decide
theorem test_encode_word_bits :
    decode 0b010000000000000000_1111110000011000#34 = .encode 0xFC18 := by decide
theorem test_encode_word_ignored_bits :
    decode 0b011111111111111111_1000000000000000#34 = .encode 0x8000 := by decide
theorem test_hdr_pcm_word_bits :
    decode 0b10_00000000000000000000000000001000#34 = .hdrPcm 8 := by decide
theorem test_hdr_g711_word_bits :
    decode 0b11_00000001000000100000001100000100#34 = .hdrG711 0x01020304 := by decide
theorem test_encode_words :
    encode (.decode 0xA5) = 0x0000000A5 ∧ encode (.encode 0xFC18) = 0x10000FC18 ∧
    encode (.hdrPcm 8) = 0x200000008 ∧ encode (.hdrG711 3) = 0x300000003 := by decide
theorem test_table_word_host_view :
    decodeTableWord 40 0x300000000 = some (.hdrG711 0) ∧ decodeTableWord 34 0x100000000 = some (.encode 0) ∧
    decodeTableWord 40 0x400000000 = none := by decide

/-! ### Ill-formed lines are refused, one for each check of WellFormed.lean (R37) -/

theorem test_wellFormed_decode_decimal : (SourceLine.mk .decode (.decimal 165)).wellFormed = false := by decide
theorem test_wellFormed_decode_digits : (SourceLine.mk .decode (.hex 3 0xA5)).wellFormed = false := by decide
theorem test_wellFormed_decode_range : (SourceLine.mk .decode (.hex 2 256)).wellFormed = false := by decide
theorem test_wellFormed_encode_low : (SourceLine.mk .encode (.decimal (-32769))).wellFormed = false := by decide
theorem test_wellFormed_encode_high : (SourceLine.mk .encode (.decimal 32768)).wellFormed = false := by decide
theorem test_wellFormed_encode_digits : (SourceLine.mk .encode (.hex 2 1)).wellFormed = false := by decide
theorem test_wellFormed_encode_range : (SourceLine.mk .encode (.hex 4 65536)).wellFormed = false := by decide
theorem test_wellFormed_hdr_negative : (SourceLine.mk .hdrPcm (.decimal (-1))).wellFormed = false := by decide
theorem test_wellFormed_hdr_high : (SourceLine.mk .hdrG711 (.decimal 4294967296)).wellFormed = false := by decide
theorem test_wellFormed_hdr_digits : (SourceLine.mk .hdrPcm (.hex 4 1)).wellFormed = false := by decide
theorem test_wellFormed_hdr_range : (SourceLine.mk .hdrG711 (.hex 8 4294967296)).wellFormed = false := by decide
theorem test_illformed_assembles_to_nothing : assemble (SourceLine.mk .encode (.decimal 40000)) = none := by decide

/-! ### DECODE: 95_test_vectors.md section 2.1 -/

theorem test_decode_table_positive :
    [0xFF, 0xFE, 0xF0, 0xEF, 0xE0, 0xDF, 0xCF, 0xBF, 0xAF, 0xA5, 0x9F, 0x8F, 0x80].map (fun b => muDecode b) =
    [0x0000, 0x0008, 0x0078, 0x0084, 0x0174, 0x018C, 0x039C, 0x07BC, 0x0FFC, 0x19FC, 0x207C, 0x417C, 0x7D7C] := by
  decide
theorem test_decode_table_negative :
    [0x7F, 0x7E, 0x70, 0x6F, 0x4E, 0x2A, 0x10, 0x0F, 0x01, 0x00].map (fun b => muDecode b) =
    [0x0000, 0xFFF8, 0xFF88, 0xFF7C, 0xFC24, 0xEB04, 0xC184, 0xBE84, 0x8684, 0x8284] := by decide

/-! ### ENCODE: 95_test_vectors.md section 2.2 -/

theorem test_encode_table_positive :
    [0, 1, 3, 4, 8, 100, 123, 124, 379, 380, 891, 892, 1000, 1915, 1916, 3963, 3964, 6652, 8059, 8060, 16251, 16252,
      32124, 32635, 32636, 32767].map (fun v => muEncode (u16 v)) =
    [0xFF, 0xFF, 0xFF, 0xFE, 0xFE, 0xF2, 0xF0, 0xEF, 0xE0, 0xDF, 0xD0, 0xCF, 0xCE, 0xC0, 0xBF, 0xB0, 0xAF, 0xA5, 0xA0,
      0x9F, 0x90, 0x8F, 0x80, 0x80, 0x80, 0x80] := by decide
theorem test_encode_table_negative :
    [-1, -3, -4, -8, -100, -1000, -25536, -32124, -32635, -32636, -32767, -32768].map (fun v => muEncode (u16 v)) =
    [0x7F, 0x7F, 0x7E, 0x7E, 0x72, 0x4E, 0x06, 0x00, 0x00, 0x00, 0x00, 0x00] := by decide

/-! ### One transaction after reset: programs P1 and P2 -/

theorem test_step_decode : firstResult 0x0000000A5 = some (.sample 0x19FC) := by decide
theorem test_step_encode : firstResult 0x10000FC18 = some (.byte 0x4E) := by decide

/-! ### The frames of 95_test_vectors.md section 2.4 -/

theorem test_frame_g711_empty :
    firstBytes 8000 0x300000000 = some
      [0x52, 0x49, 0x46, 0x46, 0x26, 0x00, 0x00, 0x00, 0x57, 0x41, 0x56, 0x45, 0x66, 0x6D, 0x74, 0x20,
       0x12, 0x00, 0x00, 0x00, 0x07, 0x00, 0x01, 0x00, 0x40, 0x1F, 0x00, 0x00, 0x40, 0x1F, 0x00, 0x00,
       0x01, 0x00, 0x08, 0x00, 0x00, 0x00, 0x64, 0x61, 0x74, 0x61, 0x00, 0x00, 0x00, 0x00] := by decide +kernel

theorem test_frame_g711_count_byte_order :
    firstBytes 8000 0x301020304 = some
      [0x52, 0x49, 0x46, 0x46, 0x2A, 0x03, 0x02, 0x01, 0x57, 0x41, 0x56, 0x45, 0x66, 0x6D, 0x74, 0x20,
       0x12, 0x00, 0x00, 0x00, 0x07, 0x00, 0x01, 0x00, 0x40, 0x1F, 0x00, 0x00, 0x40, 0x1F, 0x00, 0x00,
       0x01, 0x00, 0x08, 0x00, 0x00, 0x00, 0x64, 0x61, 0x74, 0x61, 0x04, 0x03, 0x02, 0x01] := by decide +kernel

theorem test_frame_pcm_320_at_8000 :
    firstBytes 8000 0x200000140 = some
      [0x52, 0x49, 0x46, 0x46, 0x66, 0x01, 0x00, 0x00, 0x57, 0x41, 0x56, 0x45, 0x66, 0x6D, 0x74, 0x20,
       0x12, 0x00, 0x00, 0x00, 0x01, 0x00, 0x01, 0x00, 0x40, 0x1F, 0x00, 0x00, 0x80, 0x3E, 0x00, 0x00,
       0x02, 0x00, 0x10, 0x00, 0x00, 0x00, 0x64, 0x61, 0x74, 0x61, 0x40, 0x01, 0x00, 0x00] := by decide +kernel

theorem test_frame_pcm_320_at_1600 :
    firstBytes 1600 0x200000140 = some
      [0x52, 0x49, 0x46, 0x46, 0x66, 0x01, 0x00, 0x00, 0x57, 0x41, 0x56, 0x45, 0x66, 0x6D, 0x74, 0x20,
       0x12, 0x00, 0x00, 0x00, 0x01, 0x00, 0x01, 0x00, 0x40, 0x06, 0x00, 0x00, 0x80, 0x0C, 0x00, 0x00,
       0x02, 0x00, 0x10, 0x00, 0x00, 0x00, 0x64, 0x61, 0x74, 0x61, 0x40, 0x01, 0x00, 0x00] := by decide +kernel

theorem test_frame_pcm_320_at_16000 :
    firstBytes 16000 0x200000140 = some
      [0x52, 0x49, 0x46, 0x46, 0x66, 0x01, 0x00, 0x00, 0x57, 0x41, 0x56, 0x45, 0x66, 0x6D, 0x74, 0x20,
       0x12, 0x00, 0x00, 0x00, 0x01, 0x00, 0x01, 0x00, 0x80, 0x3E, 0x00, 0x00, 0x00, 0x7D, 0x00, 0x00,
       0x02, 0x00, 0x10, 0x00, 0x00, 0x00, 0x64, 0x61, 0x74, 0x61, 0x40, 0x01, 0x00, 0x00] := by decide +kernel

theorem test_frame_g711_first_wrapping_count :
    firstBytes 8000 0x3FFFFFFDA = some
      [0x52, 0x49, 0x46, 0x46, 0x00, 0x00, 0x00, 0x00, 0x57, 0x41, 0x56, 0x45, 0x66, 0x6D, 0x74, 0x20,
       0x12, 0x00, 0x00, 0x00, 0x07, 0x00, 0x01, 0x00, 0x40, 0x1F, 0x00, 0x00, 0x40, 0x1F, 0x00, 0x00,
       0x01, 0x00, 0x08, 0x00, 0x00, 0x00, 0x64, 0x61, 0x74, 0x61, 0xDA, 0xFF, 0xFF, 0xFF] := by decide +kernel

theorem test_frame_pcm_largest_count :
    firstBytes 8000 0x2FFFFFFFF = some
      [0x52, 0x49, 0x46, 0x46, 0x25, 0x00, 0x00, 0x00, 0x57, 0x41, 0x56, 0x45, 0x66, 0x6D, 0x74, 0x20,
       0x12, 0x00, 0x00, 0x00, 0x01, 0x00, 0x01, 0x00, 0x40, 0x1F, 0x00, 0x00, 0x80, 0x3E, 0x00, 0x00,
       0x02, 0x00, 0x10, 0x00, 0x00, 0x00, 0x64, 0x61, 0x74, 0x61, 0xFF, 0xFF, 0xFF, 0xFF] := by decide +kernel

/-! ### The host procedures: section 2.5 and programs P1 to P3, P5 -/

/-- The payload of a procedure's output. -/
def payloadOf (o : ProcOutcome) : Option (List Byte) := (nextOf o).map (List.drop 46)

theorem test_P1_payload :
    payloadOf (g711ToPcm 8000 (vendorPrefix ++ [0xFF, 0x00, 0x80, 0xA5])) =
      some [0x00, 0x00, 0x84, 0x82, 0x7C, 0x7D, 0xFC, 0x19] := by decide +kernel
theorem test_P1_commands :
    (expansion (.g711ToPcm (vendorPrefix ++ [0xFF, 0x00, 0x80, 0xA5]))).map encode =
      [0x200000008, 0x0000000FF, 0x000000000, 0x000000080, 0x0000000A5] := by decide +kernel
theorem test_P2_payload :
    payloadOf (pcmToG711 [0x00, 0x00, 0xE8, 0x03, 0x18, 0xFC, 0xFF, 0x7F, 0x00, 0x80, 0x55] 2) =
      some [0xFF, 0x4E, 0x00] := by decide +kernel
theorem test_P2_commands :
    (expansion (.pcmToG711 [0x00, 0x00, 0xE8, 0x03, 0x18, 0xFC, 0xFF, 0x7F, 0x00, 0x80, 0x55] 2)).map encode =
      [0x300000003, 0x100000000, 0x10000FC18, 0x100008000] := by decide +kernel
theorem test_P2_factor_one_payload :
    payloadOf (pcmToG711 [0x00, 0x00, 0xE8, 0x03, 0x18, 0xFC, 0xFF, 0x7F, 0x00, 0x80, 0x55] 1) =
      some [0xFF, 0xCE, 0x4E, 0x80, 0x00] := by decide +kernel
theorem test_P3_truncated : g711ToPcm 8000 (List.replicate 45 0) = .fault (.truncatedInputError 45) := rfl
theorem test_P3_boundary :
    nextOf (g711ToPcm 8000 vendorPrefix) = some (hdrPcmFrame 8000 0).toList := by decide +kernel
theorem test_P5_intermediate_payload :
    payloadOf (pcmToG711 [0x64, 0x00, 0xC8, 0x00, 0xD4, 0xFE, 0xA0, 0x0F] 1) =
      some [0xF2, 0xEB, 0x64, 0xAF] := by decide +kernel
theorem test_factor_three_keeps_s0_s3_s6 :
    decimate 3 [10, 11, 12, 13, 14, 15, 16] = [10, 13, 16] := by decide +kernel
theorem test_one_byte_buffer_is_ignored : payloadOf (pcmToG711Default [0x34]) = some [] := by decide +kernel

/-! ### The written notation (R37, section 2) -/

theorem test_parse_minus_one_is_FFFF :
    (parseLine "ENCODE -1".toList).bind assemble = some (.encode 0xFFFF) ∧
    (parseLine "ENCODE 0xFFFF".toList).bind assemble = some (.encode 0xFFFF) := by decide
theorem test_parse_header_lines :
    (parseLine "HDR_G711 160".toList).bind assemble = some (.hdrG711 160) ∧
    (parseLine "HDR_PCM 0x00000140".toList).bind assemble = some (.hdrPcm 320) := by decide
theorem test_parse_rejects : parseLine "ENCODE 40000".toList = none ∧ parseLine "DECODE 255".toList = none := by decide
theorem test_written_transactions :
    transactionText { command := .decode 0x7E, result := .sample 0xFFF8 } = "DECODE 0x7E -> -8".toList ∧
    transactionText { command := .encode 0xFC18, result := .byte 0x4E } = "ENCODE -1000 -> 0x4E".toList := by decide

/-! ### Witnesses: a state and operands that meet the hypotheses of each statement that has any -/

/-- A state with a command to present. -/
def oneCommand (c : CmdWord) : State := State.reset.withCommands [c]

theorem witness_Every34BitNumberIsAnOperationThatRuns : 0x3FFFFFFFF < 2 ^ 34 := by decide
theorem witness_WiderNumbersAreRejectedByName : 2 ^ 34 ≤ 0x400000000 := by decide
theorem witness_OperandsComeFromArgAndIgnoredBitsHaveNoEffect :
    0x0000000A5#34 ≠ 0x0FFFFFFA5#34 ∧
    0x0000000A5#34 &&& significantMask (decode 0x0000000A5#34).mnemonic =
      0x0FFFFFFA5#34 &&& significantMask (decode 0x0000000A5#34).mnemonic := by decide
theorem witness_StepRunsThePresentedCommand : (oneCommand 0x0000000A5).commands = 0x0000000A5#34 :: [] := rfl
theorem witness_StepWithNothingPresentedChangesNothing : State.reset.commands = [] := rfl
theorem witness_FetchWordRunsFirst : 0x30000000A < 2 ^ 34 := by decide
theorem witness_OperationsOnlyAppendTheirResult :
    (∃ t, exec (.decode 0xA5) State.reset = .next t) ∧ (∃ t, exec (.encode 0x19FC) State.reset = .next t) ∧
    (∃ t, exec (.hdrPcm 8) State.reset = .next t) ∧ (∃ t, exec (.hdrG711 8) State.reset = .next t) :=
  ⟨⟨_, rfl⟩, ⟨_, rfl⟩, ⟨_, rfl⟩, ⟨_, rfl⟩⟩
theorem witness_StepObservesTheWrappersResult : (oneCommand 0x300000008).commands = 0x300000008#34 :: [] := rfl
theorem witness_EveryStepKeepsTheLogAFunctionOfCommands :
    ∃ s t : State, s.log ≠ [] ∧ s.Inv ∧ step s = .next t ∧ t.log ≠ s.log :=
  ⟨{ oneCommand 0x10000FC18 with log := [{ command := .decode 0xA5, result := .sample 0x19FC }] }, _,
    by decide, by decide, rfl, by decide⟩
theorem witness_NoRunChangesTheSampleRate : ∃ t, runSteps 1 (oneCommand 0x200000008) = .next t := ⟨_, rfl⟩
theorem witness_AnswerDoesNotDependOnHistory :
    ∃ s₁ s₂ : State, s₁ ≠ s₂ ∧ s₁.pcmSampleRate = s₂.pcmSampleRate ∧
      s₁.commands = 0x0000000FF#34 :: [] ∧ s₂.commands = 0x0000000FF#34 :: [] :=
  ⟨oneCommand 0x0000000FF,
    { oneCommand 0x0000000FF with log := [{ command := .decode 0xA5, result := .sample 0x19FC }] },
    by decide, rfl, rfl, rfl⟩
theorem witness_OnlyHdrPcmReadsTheRateAtOffsets24To31 :
    (∀ n, Instr.hdrG711 8 ≠ .hdrPcm n) ∧ (23 < 46 ∧ (23 < 24 ∨ 32 ≤ 23)) ∧ (32 < 46 ∧ (32 < 24 ∨ 32 ≤ 32)) ∧
    frameOut 8000 false 8 = frameOut 8000 false 8 :=
  ⟨fun _ h => Instr.noConfusion h, by decide, by decide, rfl⟩
theorem witness_InstancesDoNotAffectEachOther :
    0 ≠ 1 ∧ [oneCommand 0x0000000FF, oneCommand 0x10000FC18][0]? = some (oneCommand 0x0000000FF) ∧
    [oneCommand 0x0000000FF, oneCommand 0x10000FC18][1]? = some (oneCommand 0x10000FC18) := by decide
theorem witness_MarshalPortSelectsTheVariantAndItsFlatBus : 0 < 46 ∧ 45 < 46 := by decide
theorem witness_DecodeIntermediatesStayInRange : 7 < 8 ∧ 15 < 16 := by decide
theorem witness_DecodeSegmentTable :
    (7 < 8 ∧ 15 < 16) ∧ (7 < 8 ∧ 14 < 15) ∧ 6 < 7 ∧ (7 < 8 ∧ 15 < 16 ∧ 0 < 16 ∧ 16 * 6 + 15 < 16 * 7 + 0) := by decide
theorem witness_DecodeIdentifiesOnlyTheTwoZeroBytes : linOut 0xFF = linOut 0x7F ∧ (linOut 0x00).toInt ≤ -32124 := by
  decide
theorem witness_DecodeRangeSymmetryAndOrder :
    (0x80 ≤ (0x80#8).toNat ∧ (0x80#8).toNat < (0xFF#8).toNat) ∧
    ((0x00#8).toNat < (0x7F#8).toNat ∧ (0x7F#8).toNat < 0x80) := by decide
theorem witness_EncodeMagnitudeIsUnsigned : (0x8000#16).toInt < 0 ∧ (0xFFFF#16).toInt < 0 := by decide
theorem witness_EncodeClampsSilently : 32636 ≤ (0x7F7C#16).toInt ∧ (0x8084#16).toInt ≤ -32636 := by decide
theorem witness_ExponentScanIsTheClosedForm : (132 ≤ 132 ∧ 132 ≤ 32767) ∧ (132 ≤ 32767 ∧ 32767 ≤ 32767) := by decide
theorem witness_EncodeIntervalsAndOrder : 0 ≤ (0x0000#16).toInt ∧ (0x0000#16).toInt ≤ (0x7FFF#16).toInt := by decide
theorem witness_RoundTripThroughTheByteStaysWithinAStep :
    (0x7F7B#16).toInt.natAbs ≤ 32635 ∧ 32636 ≤ (0x7F7C#16).toInt ∧ (0x8084#16).toInt ≤ -32636 ∧
    (0x0003#16).toInt.natAbs ≤ 3 ∧ (0 < 8 ∧ 1 < 16 ∧ (0 ≠ 0 ∨ 1 ≠ 0)) ∧
    (0x0004#16).toInt.natAbs + 132 = (16 + 1) * 2 ^ (0 + 3) ∧
    (0x3F7C#16).toInt.natAbs + 132 = (16 + 0) * 2 ^ (7 + 3) := by decide
theorem witness_RoundTripThroughTheSampleKeepsEveryByteBut0x7F : (0xFF#8) ≠ 0x7F := by decide
theorem witness_HeaderSizesAndWhereTheVariantsAgree :
    (0xFFFFFFD9#32).toNat + 38 < 2 ^ 32 ∧ (19 < 46 ∧ 19 < 20) ∧ (23 < 46 ∧ 22 ≤ 23 ∧ 23 < 24) ∧
    (36 < 46 ∧ 36 ≤ 36) ∧ ((8000 : Word32) = 8000 ∧ 24 ≤ 27 ∧ 27 < 28) := by decide
theorem witness_ChunkSizeWrapsFrom0xFFFFFFDA : 0xFFFFFFDA ≤ (0xFFFFFFDA#32).toNat := by decide
theorem witness_StripSkips46BytesOrFails :
    (List.replicate 45 (0 : Byte)).length < 46 ∧ vendorPrefix.length = 46 := by decide
theorem witness_TruncatedInputIsTheOnlyFailure : (List.replicate 45 (0 : Byte)).length < 46 := by decide
theorem witness_G711ToPcmOutputByOffset :
    (List.replicate 45 (0 : Byte)).length < 46 ∧
    46 ≤ (vendorPrefix ++ [0xFF]).length ∧ 2 * ((vendorPrefix ++ [0xFF]).length - 46) < 2 ^ 32 ∧
    (vendorPrefix ++ [0xFF])[46 + 0]? = some 0xFF := by decide
theorem witness_PcmToG711OutputByOffset :
    1 ≤ 2 ∧ ([0x00, 0x00, 0xE8, 0x03, 0x55] : List Byte).length / 2 = 2 ∧
    (2 + (2 - 1)) / 2 < 2 ^ 32 ∧ 0 < (2 + (2 - 1)) / 2 := by decide
theorem witness_OddLastByteIsIgnored :
    ([0xE8, 0x03] : List Byte).length % 2 = 0 ∧ 1 ≤ 1 ∧ (([0xE8, 0x03] : List Byte).length / 2 + (1 - 1)) / 1 < 2 ^ 32 := by
  decide
theorem witness_VendorPrefixInfluencesNothing :
    vendorPrefix.length = 46 ∧ (List.replicate 46 (0 : Byte)).length = 46 ∧ vendorPrefix ≠ List.replicate 46 0 := by
  decide
theorem witness_OutputSamplesAreIndependent :
    (∃ out out', g711ToPcm 8000 (vendorPrefix ++ [0xFF, 0x00]) = .next out ∧
      g711ToPcm 8000 (List.replicate 46 0 ++ [0xFF, 0x01]) = .next out' ∧
      (vendorPrefix ++ [0xFF, 0x00])[46 + 0]? = (List.replicate 46 (0 : Byte) ++ [0xFF, 0x01])[46 + 0]?) ∧
    (∃ out out', pcmToG711 [0xE8, 0x03, 0x00, 0x00] 1 = .next out ∧ pcmToG711 [0xE8, 0x03] 1 = .next out' ∧
      2 * (0 * 1) + 1 < ([0xE8, 0x03, 0x00, 0x00] : List Byte).length ∧
      ([0xE8, 0x03, 0x00, 0x00] : List Byte)[2 * (0 * 1)]? = ([0xE8, 0x03] : List Byte)[2 * (0 * 1)]? ∧
      ([0xE8, 0x03, 0x00, 0x00] : List Byte)[2 * (0 * 1) + 1]? = ([0xE8, 0x03] : List Byte)[2 * (0 * 1) + 1]?) :=
  ⟨⟨_, _, rfl, rfl, rfl⟩, ⟨_, _, rfl, rfl, by decide, rfl, rfl⟩⟩
theorem witness_G711ToPcmIsItsCommandsRunOnTheBlock :
    ∃ out, g711ToPcm State.reset.pcmSampleRate (vendorPrefix ++ [0xFF, 0x00]) = .next out := ⟨_, rfl⟩
theorem witness_PcmToG711IsItsCommandsRunOnTheBlock :
    ∃ out, pcmToG711 [0xE8, 0x03, 0x18, 0xFC, 0x00, 0x80] 2 = .next out := ⟨_, rfl⟩
theorem witness_OutputFilesAreWellFormedWithinTheBound :
    (∃ out, g711ToPcm 8000 (vendorPrefix ++ [0xFF]) = .next out ∧
      PayloadInBounds (2 * ((vendorPrefix ++ [0xFF]).length - 46))) ∧
    (∃ out, pcmToG711 [0xE8, 0x03] 1 = .next out ∧ PayloadInBounds (out.length - 46)) :=
  ⟨⟨_, rfl, by unfold PayloadInBounds; decide⟩, ⟨_, rfl, by unfold PayloadInBounds; decide +kernel⟩⟩
theorem witness_ThereAndBackReturnsEachSampleThroughTheCodec :
    ∃ out, pcmToG711 [0x64, 0x00, 0xC8, 0x00] 1 = .next out ∧
      2 * (([0x64, 0x00, 0xC8, 0x00] : List Byte).length / 2) < 2 ^ 32 := ⟨_, rfl, by decide⟩
theorem witness_WrittenLineIsReadBack :
    (SourceLine.mk .encode (.decimal (-32768))).wellFormed = true ∧
    (SourceLine.mk .hdrPcm (.hex 8 0xFFFFFFFF)).wellFormed = true := by decide

end Sys2Proof.Tests
end

namespace Sys2Proof.Machine

/-! ### The block has no state: what a transaction observes (10_state.md rules R5, R15) -/

/-- A step with a command presented: the command is taken and its result recorded, a function of the command and of the
rate alone (R5, R9). -/
theorem step_eq_record_of_commands {s : State} {c : CmdWord} {rest : List CmdWord} (h : s.commands = c :: rest) :
    step s =
      .next (({ s with commands := rest } : State).record (decode c) (resultOf s.pcmSampleRate (decode c))) := by
  rw [step, takeCommand_cons h]
  exact exec_eq_record (decode c) { s with commands := rest }

/-- Settles O20: both steps record the decoded command with its result at the common rate. -/
theorem answerDoesNotDependOnHistory : Obligations.AnswerDoesNotDependOnHistory := by
  intro s₁ s₂ c r₁ r₂ hrate h₁ h₂
  refine ⟨{ command := decode c, result := resultOf s₁.pcmSampleRate (decode c) },
    step_eq_record_of_commands h₁, ?_⟩
  rw [hrate]
  exact step_eq_record_of_commands h₂

end Sys2Proof.Machine

namespace Sys2Proof

/-! ### Numbers presented as command words (30_encoding.md rule R35) -/

/-- A number that fits the 34-bit port is the word of that value, and the decoder answers its operation. -/
theorem decodeNat_of_lt {w : Nat} (h : w < 2 ^ 34) : decodeNat w = .ok (decode (BitVec.ofNat 34 w)) :=
  if_pos h

/-- Cutting a 34-bit number to a wider host word loses nothing, so the host sees the decoder's operation. -/
theorem decodeTableWord_of_lt {nbits w : Nat} (hbits : 34 ≤ nbits) (h : w < 2 ^ 34) :
    decodeTableWord nbits w = some (decode (BitVec.ofNat 34 w)) := by
  have hmod : w % 2 ^ nbits = w := Nat.mod_eq_of_lt (h.trans_le (Nat.pow_le_pow_right (by decide) hbits))
  rw [decodeTableWord, hmod, decodeNat_of_lt h]

namespace Machine

/-- Settles O5: the operation is that of the 34-bit word, and from every state it records its result. -/
theorem every34BitNumberIsAnOperationThatRuns : Obligations.Every34BitNumberIsAnOperationThatRuns := by
  intro w hw
  exact ⟨decode (BitVec.ofNat 34 w), decodeNat_of_lt hw, decodeTableWord_of_lt (by decide) hw,
    fun s => ⟨_, exec_eq_record _ s⟩⟩

/-! ### The header fields read back (30_encoding.md rule R36, 42_container_framer.md rule R58) -/

/-- Settles O41: each frame is the parts of its variant's fields, so each read answers the field of R30 at that offset,
whose value in `g711Fields` and `pcmFields` is the one stated. -/
theorem constantAndFormatFieldsReadBack : Obligations.ConstantAndFormatFieldsReadBack := by
  intro r n
  simp only [frameOut_true, frameOut_false, hdrG711Frame_toList, hdrPcmFrame_toList]
  exact ⟨⟨memRead_fmtSize _, memRead_fmtSize _⟩,
    ⟨memRead_formatCode _, memRead_formatCode _⟩,
    ⟨memRead_channels _, memRead_channels _⟩,
    ⟨memRead_bitsPerSample _, memRead_bitsPerSample _⟩,
    ⟨memRead_extensionSize _, memRead_extensionSize _⟩,
    ⟨memRead_dataSize _, memRead_dataSize _⟩⟩

end Machine

end Sys2Proof

namespace Sys2Proof

/-! ### The command word of DECODE (30_encoding.md rules R33, R34) -/

/-- The `op` field of a command word assembled from its two fields. -/
@[simp] theorem opField_append (op : BitVec 2) (arg : Word32) : opField (op ++ arg) = op :=
  BitVec.extractLsb'_append_eq_left

/-- The `arg` field of a command word assembled from its two fields. -/
@[simp] theorem argField_append (op : BitVec 2) (arg : Word32) : argField (op ++ arg) = arg :=
  BitVec.extractLsb'_append_eq_right

/-- `op = 0b00` selects DECODE, whatever the ignored bits of `arg` hold. -/
theorem decode_append_op00 (arg : Word32) : decode (0b00#2 ++ arg) = .decode (byteOperand arg) := by
  simp [decode]

namespace Machine

/-! ### The fields of a wire byte as plain arithmetic (30_encoding.md rule R28) -/

/-- Inverting all eight bits of a byte is the subtraction from 255. -/
theorem toNat_not_byte (b : Byte) : (~~~b).toNat = 255 - b.toNat := BitVec.toNat_not

theorem fieldsOfWire_sign (b : Byte) : (fieldsOfWire b).sign = decide (128 ≤ 255 - b.toNat) := by
  rw [← toNat_not_byte, fieldsOfWire, fieldsOf]
  exact (BitVec.msb_eq_getLsbD_last _).symm.trans (BitVec.msb_eq_decide _)

theorem fieldsOfWire_exponent_toNat (b : Byte) :
    (fieldsOfWire b).exponent.toNat = (255 - b.toNat) / 16 % 8 := by
  rw [← toNat_not_byte, fieldsOfWire, fieldsOf, BitVec.extractLsb'_toNat, Nat.shiftRight_eq_div_pow]

theorem fieldsOfWire_mantissa_toNat (b : Byte) :
    (fieldsOfWire b).mantissa.toNat = (255 - b.toNat) % 16 := by
  rw [← toNat_not_byte, fieldsOfWire, fieldsOf, BitVec.extractLsb'_toNat, Nat.shiftRight_zero]

/-! ### DECODE's intermediates in closed form (40_codec_decode.md rules R39, R41) -/

/-- The implicit leading one is above the mantissa, so setting it is adding 16. -/
theorem decodeT1_eq {m : Nat} (hm : m < 16) : decodeT1 m = m + 16 := by
  rw [decodeT1, Nat.or_comm, Nat.add_comm]
  exact (Nat.two_pow_add_eq_or_of_lt (i := 4) hm 1).symm

theorem decodeT2_eq {m : Nat} (hm : m < 16) : decodeT2 m = 2 * m + 33 := by
  rw [decodeT2, decodeT1_eq hm, Nat.shiftLeft_eq]
  omega

theorem decodeT3_eq (e : Nat) {m : Nat} (hm : m < 16) : decodeT3 e m = (2 * m + 33) * 2 ^ (e + 2) := by
  rw [decodeT3, decodeT2_eq hm, Nat.shiftLeft_eq]

/-- The subtraction of the bias never borrows: the smallest value it is taken from is `33 * 4 = 132`. -/
theorem bias_le_decodeT3 (e : Nat) {m : Nat} (hm : m < 16) : Config.bias ≤ decodeT3 e m := by
  rw [decodeT3_eq e hm]
  calc Config.bias = 33 * 2 ^ 2 := rfl
    _ ≤ (2 * m + 33) * 2 ^ (e + 2) :=
      Nat.mul_le_mul (Nat.le_add_left 33 _) (Nat.pow_le_pow_right (by decide) (Nat.le_add_left 2 e))

/-- The closed form of R41, with the bias on the left so that it stays in the natural numbers. -/
theorem decodeMagnitude_add_bias (e : Nat) {m : Nat} (hm : m < 16) :
    decodeMagnitude e m + 132 = (2 * m + 33) * 2 ^ (e + 2) :=
  (Nat.sub_add_cancel (bias_le_decodeT3 e hm)).trans (decodeT3_eq e hm)

/-- The magnitude as an integer, the bias subtracted as R39 does. -/
theorem intCast_decodeMagnitude (e : Nat) {m : Nat} (hm : m < 16) :
    (decodeMagnitude e m : Int) = (2 * m + 33) * 2 ^ (e + 2) - 132 :=
  eq_sub_of_add_eq (mod_cast decodeMagnitude_add_bias e hm)

/-- DECODE's sample in plain arithmetic on `u = 255 - b` (R39). -/
theorem muDecode_eq (b : Byte) :
    let u := 255 - b.toNat
    let mag : Int := (2 * (u % 16 : Nat) + 33) * 2 ^ (u / 16 % 8 + 2) - 132
    muDecode b = BitVec.ofInt 16 (if 128 ≤ u then 0 - mag else mag) := by
  have hm : (255 - b.toNat) % 16 < 16 := Nat.mod_lt _ (by decide)
  simp only [muDecode, u16, decodeValue, fieldsOfWire_sign, fieldsOfWire_exponent_toNat,
    fieldsOfWire_mantissa_toNat, intCast_decodeMagnitude _ hm, decide_eq_true_eq]

/-- Settles O27: the word's fields select DECODE, its sample is the closed form of R39, and its meaning records that
sample and nothing else. -/
theorem decodeObservesTheR39Sample : Obligations.DecodeObservesTheR39Sample := by
  refine ⟨decode_append_op00, fun b s => ?_⟩
  have hsample := muDecode_eq b
  refine ⟨hsample, ?_⟩
  rw [← hsample]
  exact exec_eq_record (.decode b) s

end Machine

end Sys2Proof

namespace Sys2Proof

/-! ### The command word of ENCODE (30_encoding.md rules R33, R34) -/

/-- `op = 0b01` selects ENCODE, whatever the ignored bits of `arg` hold. -/
theorem decode_append_op01 (arg : Word32) : decode (0b01#2 ++ arg) = .encode (sampleOperand arg) := by
  simp [decode]

namespace Machine

/-! ### ENCODE's clamped and biased magnitude (41_codec_encode.md rules R44 to R46) -/

theorem clampMagnitude_eq (mag : Nat) : clampMagnitude mag = if 32635 < mag then 32635 else mag := by
  simp only [clampMagnitude, overflowGuard, decide_eq_true_eq]

theorem clampMagnitude_eq_min (mag : Nat) : clampMagnitude mag = min mag 32635 := by
  rw [clampMagnitude_eq]
  split <;> omega

/-- The magnitude is exact for every sample, −32768 included (R45). -/
theorem encodeMag0_eq_natAbs (x : Sample) : encodeMag0 x = x.toInt.natAbs := by
  simp only [encodeMag0, encodeSign_eq, s16, decide_eq_true_eq]
  split <;> omega

theorem encodeBiased_eq (x : Sample) : encodeBiased x = min x.toInt.natAbs 32635 + 132 := by
  rw [encodeBiased, clampMagnitude_eq_min, encodeMag0_eq_natAbs]

theorem encodeBiased_le (x : Sample) : encodeBiased x ≤ 32767 := by
  rw [encodeBiased_eq]
  omega

/-- The bias keeps the biased magnitude above zero, so that it has a highest set bit. -/
theorem encodeBiased_ne_zero (x : Sample) : encodeBiased x ≠ 0 := Nat.succ_ne_zero _

/-! ### ENCODE's exponent and mantissa in closed form (41_codec_encode.md rules R44, R47) -/

/-- A number below `2 ^ (k + 1)` meets the mask of its bit `k` exactly when it is at least `2 ^ k`. -/
theorem and_two_pow_eq_zero_iff {n k : Nat} (hn : n < 2 ^ (k + 1)) : n &&& 2 ^ k = 0 ↔ n < 2 ^ k := by
  constructor
  · intro hand
    by_contra hlt
    have hbit : n.testBit k = true := Nat.testBit_of_two_pow_le_and_two_pow_add_one_gt (Nat.le_of_not_lt hlt) hn
    simp [Nat.and_two_pow, hbit] at hand
  · intro hlt
    simp [Nat.and_two_pow, Nat.testBit_lt_two_pow hlt]

/-- The scan finds the highest set bit: started at exponent `e` with the mask of bit `e + 7` on a number with no
higher bit, it answers that bit's number less 7. -/
theorem exponentScan_two_pow {bm : Nat} (hbm : bm ≠ 0) :
    ∀ e, bm < 2 ^ (e + 8) → exponentScan bm e (2 ^ (e + 7)) = Nat.log2 bm - 7
  | 0, hlt => by
    have hlog : Nat.log2 bm < 8 := (Nat.log2_lt hbm).2 hlt
    rw [exponentScan_zero]
    omega
  | e + 1, hlt => by
    rw [exponentScan_succ]
    split
    next hmiss =>
      have hmask : 2 ^ (e + 1 + 7) >>> 1 = 2 ^ (e + 7) := by
        rw [Nat.shiftRight_eq_div_pow]
        exact Nat.pow_div (by omega) (by decide)
      rw [hmask]
      exact exponentScan_two_pow hbm e ((and_two_pow_eq_zero_iff hlt).1 hmiss)
    next hmeet =>
      have hle : 2 ^ (e + 8) ≤ bm := Nat.le_of_not_lt fun h => hmeet ((and_two_pow_eq_zero_iff hlt).2 h)
      have hlog : Nat.log2 bm = e + 8 := (Nat.log2_eq_iff hbm).2 ⟨hle, hlt⟩
      omega

theorem encodeExponent_eq {bm : Nat} (hbm : bm ≠ 0) (hle : bm ≤ 32767) : encodeExponent bm = Nat.log2 bm - 7 :=
  exponentScan_two_pow hbm 7 (Nat.lt_succ_of_le hle)

theorem encodeExponent_le (bm : Nat) : encodeExponent bm ≤ 7 := exponentScan_le bm 7 _

theorem encodeMantissa_eq (bm e : Nat) : encodeMantissa bm e = bm / 2 ^ (e + 3) % 16 := by
  rw [encodeMantissa, Nat.shiftRight_eq_div_pow]
  exact Nat.and_two_pow_sub_one_eq_mod _ 4

/-! ### The fields of ENCODE's byte and their assembly (30_encoding.md rule R28) -/

theorem encodeFields_sign (x : Sample) : (encodeFields x).sign = decide (x.toInt < 0) := encodeSign_eq x

/-- The exponent fits its three bits. -/
theorem encodeFields_exponent_toNat (x : Sample) :
    (encodeFields x).exponent.toNat = Nat.log2 (encodeBiased x) - 7 := by
  rw [← encodeExponent_eq (encodeBiased_ne_zero x) (encodeBiased_le x)]
  exact (BitVec.toNat_ofNat _ _).trans (Nat.mod_eq_of_lt (Nat.lt_succ_of_le (encodeExponent_le _)))

/-- The mantissa fits its four bits. -/
theorem encodeFields_mantissa_toNat (x : Sample) :
    (encodeFields x).mantissa.toNat = encodeBiased x / 2 ^ (Nat.log2 (encodeBiased x) - 7 + 3) % 16 := by
  rw [← encodeExponent_eq (encodeBiased_ne_zero x) (encodeBiased_le x), ← encodeMantissa_eq]
  refine (BitVec.toNat_ofNat _ _).trans (Nat.mod_eq_of_lt ?_)
  rw [encodeMantissa_eq]
  exact Nat.mod_lt _ (by decide)

/-- The three fields lie side by side in the field form. -/
theorem fieldForm_toNat (f : MuFields) :
    (fieldForm f).toNat = 128 * (if f.sign then 1 else 0) + 16 * f.exponent.toNat + f.mantissa.toNat := by
  have hsign : (BitVec.ofBool f.sign).toNat = if f.sign then 1 else 0 := by cases f.sign <;> rfl
  rw [fieldForm, BitVec.toNat_append, BitVec.toNat_append, hsign,
    ← Nat.shiftLeft_add_eq_or_of_lt f.exponent.isLt, ← Nat.shiftLeft_add_eq_or_of_lt f.mantissa.isLt,
    Nat.shiftLeft_eq, Nat.shiftLeft_eq]
  omega

/-- The wire byte is the field form subtracted from 255. -/
theorem wireOfFields_eq (f : MuFields) :
    wireOfFields f =
      BitVec.ofNat 8 (255 - (128 * (if f.sign then 1 else 0) + 16 * f.exponent.toNat + f.mantissa.toNat)) := by
  rw [← fieldForm_toNat, wireOfFields, ← toNat_not_byte, BitVec.ofNat_toNat, BitVec.setWidth_eq]

/-- ENCODE's byte in plain arithmetic on the sample's value (R44). -/
theorem muEncode_eq (x : Sample) :
    let bm := min x.toInt.natAbs 32635 + 132
    let e := Nat.log2 bm - 7
    muEncode x =
      BitVec.ofNat 8 (255 - (128 * (if x.toInt < 0 then 1 else 0) + 16 * e + bm / 2 ^ (e + 3) % 16)) := by
  simp only [muEncode, wireOfFields_eq, encodeFields_sign, encodeFields_exponent_toNat,
    encodeFields_mantissa_toNat, encodeBiased_eq, decide_eq_true_eq]

/-- ENCODE's meaning records the sample's byte and changes nothing else. -/
theorem exec_encode_of_muEncode_eq {x : Sample} {b : Byte} (h : muEncode x = b) (s : State) :
    exec (.encode x) s = .next { s with log := s.log ++ [{ command := .encode x, result := .byte b }] } := by
  rw [← h]
  exact exec_eq_record (.encode x) s

/-- Settles O32: the word's fields select ENCODE, its byte is the closed form of R44, and its meaning records that byte
and nothing else. -/
theorem encodeObservesTheR44Byte : Obligations.EncodeObservesTheR44Byte :=
  ⟨decode_append_op01, fun x s => ⟨muEncode_eq x, exec_encode_of_muEncode_eq (muEncode_eq x) s⟩⟩

/-! ### The clamp leaves no trace (41_codec_encode.md rule R46) -/

/-- From the clamp's limit up only the sign is left: the biased magnitude is 32767, exponent 7 and mantissa 15. -/
theorem muEncode_of_clip_le {x : Sample} (h : 32635 ≤ x.toInt.natAbs) :
    muEncode x = if x.toInt < 0 then 0x00 else 0x80 := by
  rw [muEncode_eq, Nat.min_eq_right h]
  split <;> decide

/-- The byte of a clamped positive sample. -/
theorem muEncode_of_clip_le_toInt {x : Sample} (h : 32635 ≤ x.toInt) : muEncode x = 0x80 := by
  rw [muEncode_of_clip_le (by omega), if_neg (by omega)]

/-- The byte of a clamped negative sample. -/
theorem muEncode_of_toInt_le_neg_clip {x : Sample} (h : x.toInt ≤ -32635) : muEncode x = 0x00 := by
  rw [muEncode_of_clip_le (by omega), if_pos (by omega)]

/-- Settles O34: a clamped sample and the limit of its sign have one byte, and the meaning records that byte and nothing
else. -/
theorem encodeClampsSilently : Obligations.EncodeClampsSilently := by
  refine ⟨clampMagnitude_eq, fun x => ⟨rfl, encodeBiased_le x⟩, fun x s hx => ?_, fun x s hx => ?_, by decide, by decide⟩
  · have hbyte : muEncode x = 0x80 := muEncode_of_clip_le_toInt (by omega)
    exact ⟨hbyte.trans (muEncode_of_clip_le_toInt (by decide)).symm, exec_encode_of_muEncode_eq hbyte s⟩
  · have hbyte : muEncode x = 0x00 := muEncode_of_toInt_le_neg_clip (by omega)
    exact ⟨hbyte.trans (muEncode_of_toInt_le_neg_clip (by decide)).symm, exec_encode_of_muEncode_eq hbyte s⟩

end Machine

end Sys2Proof

namespace Sys2Proof

/-! ### The command word of HDR_G711 (30_encoding.md rules R33, R34) -/

/-- `op = 0b11` selects HDR_G711, with all of `arg` as its count. -/
theorem decode_append_op11 (arg : Word32) : decode (0b11#2 ++ arg) = .hdrG711 arg := by
  simp [decode, countOperand]

namespace Machine

/-! ### The bytes of the G.711 frame (42_container_framer.md rule R52) -/

/-- The parts of the G.711 variant byte by byte: only the chunk size and the data size depend on the count. -/
theorem headerParts_g711Fields (n : Word32) :
    let c := chunkSizeOf n
    headerParts (g711Fields n) =
      [0x52, 0x49, 0x46, 0x46, c.extractLsb' 0 8, c.extractLsb' 8 8, c.extractLsb' 16 8, c.extractLsb' 24 8] ++
      [0x57, 0x41, 0x56, 0x45, 0x66, 0x6D, 0x74, 0x20] ++
      [0x12, 0x00, 0x00, 0x00, 0x07, 0x00, 0x01, 0x00] ++
      [0x40, 0x1F, 0x00, 0x00, 0x40, 0x1F, 0x00, 0x00] ++
      [0x01, 0x00, 0x08, 0x00, 0x00, 0x00, 0x64, 0x61] ++
      [0x74, 0x61, n.extractLsb' 0 8, n.extractLsb' 8 8, n.extractLsb' 16 8, n.extractLsb' 24 8] := by
  have hsize : le32 Config.fmtSize = [0x12, 0x00, 0x00, 0x00] := by decide
  have hcode : le16 Config.fmtMulaw = [0x07, 0x00] := by decide
  -- The channel count and the block align are both 1.
  have hone : le16 1 = [0x01, 0x00] := by decide
  have hrate : le32 Config.g711Rate = [0x40, 0x1F, 0x00, 0x00] := by decide
  have hbits : le16 Config.g711Bits = [0x08, 0x00] := by decide
  have hext : le16 Config.extSize = [0x00, 0x00] := by decide
  simp only [headerParts, g711Fields, hsize, hcode, hone, hrate, hbits, hext]
  rfl

/-- Settles O39: the word's fields select HDR_G711, its meaning records its frame and nothing else, and that frame is
the parts of the G.711 variant's fields. -/
theorem hdrG711ObservesTheR52Bytes : Obligations.HdrG711ObservesTheR52Bytes :=
  ⟨decode_append_op11, fun n s =>
    ⟨exec_eq_record (.hdrG711 n) s, (hdrG711Frame_toList n).trans (headerParts_g711Fields n)⟩⟩

/-! ### The sizes of both variants, and where their frames agree (42_container_framer.md rule R54) -/

theorem chunkSizeOf_toNat (n : Word32) : (chunkSizeOf n).toNat = (n.toNat + 38) % 2 ^ 32 := BitVec.toNat_ofNat _ _

/-- The chunk size of either variant, for every count. -/
theorem memRead_frameOut_chunkSize (r n : Word32) (sel : Bool) :
    memRead (frameOut r sel n).toList 4 4 = some ((n.toNat + 38) % 2 ^ 32) := by
  rw [← chunkSizeOf_toNat]
  cases sel
  case false => rw [frameOut_false, hdrPcmFrame_toList, memRead_chunkSize, pcmFields]
  case true => rw [frameOut_true, hdrG711Frame_toList, memRead_chunkSize, g711Fields]

/-- The data size of either variant. -/
theorem memRead_frameOut_dataSize (r n : Word32) (sel : Bool) :
    memRead (frameOut r sel n).toList 42 4 = some n.toNat := by
  cases sel
  case false => rw [frameOut_false, hdrPcmFrame_toList, memRead_dataSize, pcmFields]
  case true => rw [frameOut_true, hdrG711Frame_toList, memRead_dataSize, g711Fields]

/-- Where the two variants' fields give the same bytes over a range, their frames agree at each offset of it. -/
theorem frameOut_agree_of_headerParts {r n : Word32} {a k j : Nat}
    (h : ((headerParts (g711Fields n)).drop a).take k = ((headerParts (pcmFields r n)).drop a).take k)
    (hj : j < 46) (ha : a ≤ j) (hk : j < a + k) : (frameOut r true n)[j] = (frameOut r false n)[j] := by
  rw [← hdrG711Frame_toList, ← hdrPcmFrame_toList] at h
  exact frame_range_eq _ _ a k h j hj ha hk

/-- Settles O43: both variants write the same sizes, and in each range their fields are the same, the sample rate once
it is the G.711 rate. -/
theorem headerSizesAndWhereTheVariantsAgree : Obligations.HeaderSizesAndWhereTheVariantsAgree := by
  refine ⟨fun r n sel hfit => ?_, memRead_frameOut_dataSize, fun r n j hj hrange => ?_⟩
  · rw [memRead_frameOut_chunkSize, Nat.mod_eq_of_lt hfit]
  · rcases hrange with hlt | ⟨hge, hlt⟩ | hge | ⟨rfl, hge, hlt⟩
    · exact frameOut_agree_of_headerParts (a := 0) (k := 20)
        (by simp only [headerParts_take20, g711Fields, pcmFields]) hj j.zero_le (by omega)
    · exact frameOut_agree_of_headerParts (a := 22) (k := 2)
        (by simp only [headerParts_channels, g711Fields, pcmFields]) hj hge hlt
    · exact frameOut_agree_of_headerParts (a := 36) (k := 10)
        (by simp only [headerParts_drop36, g711Fields, pcmFields]) hj hge hj
    · exact frameOut_agree_of_headerParts (a := 24) (k := 4)
        (by simp only [headerParts_sampleRate, g711Fields, pcmFields]) hj hge hlt

end Machine

end Sys2Proof

namespace Sys2Proof.Machine

/-! ### The output of PCM_TO_G711 by offset (43_pipeline_host.md rules R61, R62) -/

/-- Sample `j` is made of the bytes at `2j` and `2j + 1`, and there is none where one of them is missing (R61, R63). -/
theorem samplesOf_getElem? : ∀ (buf : List Byte) (j : Nat),
    (samplesOf buf)[j]? = Option.map₂ sampleOfBytes buf[2 * j]? buf[2 * j + 1]?
  | [], _ => rfl
  | [_], j => by simp [samplesOf]
  | _ :: _ :: _, 0 => rfl
  | _ :: _ :: rest, j + 1 => samplesOf_getElem? rest j

/-- The count of the samples PCM_TO_G711 retains, from the buffer's length (R61). -/
theorem decimate_samplesOf_length {factor : Nat} (hf : 1 ≤ factor) (buf : List Byte) :
    (decimate factor (samplesOf buf)).length = ceilDiv (buf.length / 2) factor := by
  rw [decimate_length factor hf, samplesOf_length]

/-- When PCM_TO_G711 succeeds, and with which output (R61). -/
theorem pcmToG711_eq_next_iff {buf out : List Byte} {factor : Nat} :
    pcmToG711 buf factor = .next out ↔
      1 ≤ factor ∧ (decimate factor (samplesOf buf)).length < 2 ^ 32 ∧
        out = g711File (decimate factor (samplesOf buf)) := by
  rcases pcmToG711_cases buf factor with ⟨hf, h⟩ | ⟨hf, hfit, h, -⟩ | ⟨-, hbig, h⟩
  · rw [h]
    exact ⟨nofun, fun ⟨hpos, _⟩ => absurd hf (Nat.ne_of_gt hpos)⟩
  · rw [h, Host.Outcome.next.injEq]
    exact ⟨fun hout => ⟨hf, hfit, hout.symm⟩, fun ⟨_, _, hout⟩ => hout.symm⟩
  · rw [h]
    exact ⟨nofun, fun ⟨_, hfit, _⟩ => absurd hfit hbig.not_gt⟩

theorem g711File_length (kept : List Sample) : (g711File kept).length = 46 + kept.length := by
  rw [g711File, List.length_append, frame_toList_length, List.length_map]

theorem g711File_take (kept : List Sample) : (g711File kept).take 46 = (hdrG711Frame (trunc32 kept.length)).toList :=
  List.take_left' (frame_toList_length _)

theorem g711File_getElem? (kept : List Sample) (k : Nat) : (g711File kept)[46 + k]? = kept[k]?.map muEncode := by
  rw [g711File, List.getElem?_append_right (by simp), frame_toList_length, Nat.add_sub_cancel_left, List.getElem?_map]

/-- Output byte `46 + k` of PCM_TO_G711 is ENCODE of sample `k * F`, which is the input bytes `2kF` and `2kF + 1`
(R61, R64). -/
theorem g711File_decimate_getElem? {factor : Nat} (hf : 1 ≤ factor) (buf : List Byte) (k : Nat) :
    (g711File (decimate factor (samplesOf buf)))[46 + k]? =
      (Option.map₂ sampleOfBytes buf[2 * (k * factor)]? buf[2 * (k * factor) + 1]?).map muEncode := by
  rw [g711File_getElem?, decimate_get factor hf, samplesOf_getElem?]

/-- Settles O49: the file of the retained samples has the stated length and frame, and a retained index `k` lies so that
the two bytes of sample `k * F` are in the buffer. -/
theorem pcmToG711OutputByOffset : Obligations.PcmToG711OutputByOffset := by
  refine ⟨fun _ buf factor hf => ?_, fun _ => rfl, fun _ => if_pos rfl⟩
  intro count hfit
  have hlen : (decimate factor (samplesOf buf)).length = count := decimate_samplesOf_length hf buf
  refine ⟨g711File (decimate factor (samplesOf buf)), pcmToG711_eq_next_iff.2 ⟨hf, by rwa [hlen], rfl⟩, ?_, ?_, ?_⟩
  · rw [g711File_length, hlen]
  · rw [g711File_take, hlen, frameOut_true, trunc32]
  · intro k hk
    have hsample : k * factor < buf.length / 2 := (lt_ceilDiv_iff _ _ _ hf).1 hk
    have hlo := List.getElem?_eq_getElem (l := buf) (i := 2 * (k * factor)) (by omega)
    have hhi := List.getElem?_eq_getElem (l := buf) (i := 2 * (k * factor) + 1) (by omega)
    refine ⟨_, _, hlo, hhi, ?_⟩
    rw [g711File_decimate_getElem? hf, hlo, hhi]
    rfl

/-! ### The output of G711_TO_PCM by offset (43_pipeline_host.md rule R60) -/

/-- When G711_TO_PCM succeeds, and with which output (R60). -/
theorem g711ToPcm_eq_next_iff {rate : Word32} {buf out : List Byte} :
    g711ToPcm rate buf = .next out ↔
      46 ≤ buf.length ∧ 2 * (buf.length - 46) < 2 ^ 32 ∧ out = pcmFile rate (buf.drop 46) := by
  rcases g711ToPcm_cases rate buf with ⟨hshort, h, -⟩ | ⟨hlen, hfit, h, -⟩ | ⟨-, hbig, -, h⟩
  · rw [h]
    exact ⟨nofun, fun ⟨hlen, _⟩ => absurd hlen hshort.not_ge⟩
  · rw [h, Host.Outcome.next.injEq]
    exact ⟨fun hout => ⟨hlen, hfit, hout.symm⟩, fun ⟨_, _, hout⟩ => hout.symm⟩
  · rw [h]
    exact ⟨nofun, fun ⟨_, hfit, _⟩ => absurd hfit hbig.not_gt⟩

/-- The two bytes of sample `i` among samples laid out one after another, low byte first (R18). -/
theorem flatMap_le16_getElem? (f : Byte → Sample) : ∀ (xs : List Byte) (i : Nat),
    (xs.flatMap fun b => le16 (f b))[2 * i]? = xs[i]?.map (fun b => (f b).extractLsb' 0 8) ∧
    (xs.flatMap fun b => le16 (f b))[2 * i + 1]? = xs[i]?.map (fun b => (f b).extractLsb' 8 8)
  | [], _ => ⟨rfl, rfl⟩
  | _ :: _, 0 => ⟨rfl, rfl⟩
  | _ :: xs, i + 1 => flatMap_le16_getElem? f xs i

/-- Output bytes `46 + 2i` and `47 + 2i` of G711_TO_PCM are DECODE of input byte `46 + i`, low byte first (R60, R64). -/
theorem pcmFile_drop_getElem? (rate : Word32) (buf : List Byte) (i : Nat) :
    (pcmFile rate (buf.drop 46))[46 + 2 * i]? = buf[46 + i]?.map (fun b => (muDecode b).extractLsb' 0 8) ∧
    (pcmFile rate (buf.drop 46))[47 + 2 * i]? = buf[46 + i]?.map (fun b => (muDecode b).extractLsb' 8 8) := by
  have hpayload (j : Nat) : (pcmFile rate (buf.drop 46))[46 + j]? =
      ((buf.drop 46).flatMap fun b => le16 (muDecode b))[j]? := by
    rw [pcmFile, List.getElem?_append_right (by simp), frame_toList_length, Nat.add_sub_cancel_left]
  obtain ⟨hlo, hhi⟩ := flatMap_le16_getElem? muDecode (buf.drop 46) i
  rw [List.getElem?_drop] at hlo hhi
  rw [show 47 + 2 * i = 46 + (2 * i + 1) by omega, hpayload, hpayload]
  exact ⟨hlo, hhi⟩

/-! ### Independence of the output samples (43_pipeline_host.md rule R64) -/

/-- Settles O52: both procedures' output bytes are a function of the input bytes of their one sample. -/
theorem outputSamplesAreIndependent : Obligations.OutputSamplesAreIndependent := by
  refine ⟨fun rate buf buf' _ _ i hout hout' _ hbyte => ?_, fun buf buf' _ _ factor k hout hout' _ hlo hhi => ?_⟩
  · obtain ⟨-, -, hfile⟩ := g711ToPcm_eq_next_iff.1 hout
    obtain ⟨-, -, hfile'⟩ := g711ToPcm_eq_next_iff.1 hout'
    obtain ⟨hfirst, hsecond⟩ := pcmFile_drop_getElem? rate buf i
    obtain ⟨hfirst', hsecond'⟩ := pcmFile_drop_getElem? rate buf' i
    rw [hfile, hfile', hfirst, hsecond, hfirst', hsecond', hbyte]
    exact ⟨rfl, rfl⟩
  · obtain ⟨hf, -, hfile⟩ := pcmToG711_eq_next_iff.1 hout
    obtain ⟨-, -, hfile'⟩ := pcmToG711_eq_next_iff.1 hout'
    rw [hfile, hfile', g711File_decimate_getElem? hf, g711File_decimate_getElem? hf, hlo, hhi]

/-! ### STRIP (43_pipeline_host.md rule R59) -/

/-- Settles O46: of the two things STRIP can answer the buffer's length picks the one, and its skip removes exactly
the 46 bytes in front. -/
theorem stripSkips46BytesOrFails : Obligations.StripSkips46BytesOrFails := by
  refine ⟨fun buf hshort => ?_, fun vendorBytes rest hlen => ?_, fun _ => rfl⟩
  · rcases strip_cases buf with ⟨-, h⟩ | ⟨hlong, -⟩
    · exact h
    · omega
  · rcases strip_cases (vendorBytes ++ rest) with ⟨hshort, -⟩ | ⟨-, h⟩
    · rw [List.length_append] at hshort
      omega
    · rw [h, List.drop_left' hlen]

end Sys2Proof.Machine

namespace Sys2Proof

/-! ### The command word as its two fields (30_encoding.md rules R33, R34) -/

/-- `op = 0b10` selects HDR_PCM, with all of `arg` as its count. -/
theorem decode_append_op10 (arg : Word32) : decode (0b10#2 ++ arg) = .hdrPcm arg := by
  simp [decode, countOperand]

/-- Every command word is one of the four op codes above an argument. -/
theorem cmdWord_cases (c : CmdWord) :
    ∃ arg : Word32, c = 0b00#2 ++ arg ∨ c = 0b01#2 ++ arg ∨ c = 0b10#2 ++ arg ∨ c = 0b11#2 ++ arg := by
  have hsplit : c = opField c ++ argField c :=
    BitVec.eq_of_getLsbD_eq fun k hk => by
      rw [BitVec.getLsbD_append, opField, argField, BitVec.getLsbD_extractLsb', BitVec.getLsbD_extractLsb', Nat.zero_add]
      split
      · next hlow => simp [hlow]
      · next hhigh => simp [show k - 32 < 2 by omega, show 32 + (k - 32) = k by omega]
  have hop : ∀ op : BitVec 2, op = 0b00 ∨ op = 0b01 ∨ op = 0b10 ∨ op = 0b11 := by decide
  refine ⟨argField c, ?_⟩
  rcases hop (opField c) with h | h | h | h <;> rw [h] at hsplit
  · exact .inl hsplit
  · exact .inr (.inl hsplit)
  · exact .inr (.inr (.inl hsplit))
  · exact .inr (.inr (.inr hsplit))

/-- An operand narrower than `arg` is read back from the bits it was placed in. -/
theorem extractLsb'_setWidth_of_le {w : Nat} (hw : w ≤ 32) (b : BitVec w) :
    (BitVec.setWidth 32 b).extractLsb' 0 w = b := by
  rw [← BitVec.setWidth_eq_extractLsb' hw, BitVec.setWidth_setWidth_of_le _ hw, BitVec.setWidth_eq]

/-- Settles O2: the word is `op` above `arg`, so each op code selects its own operation again, and the operand is
read back from the bits of `arg` it was placed in. -/
theorem decodeOfEncodeIsTheInstruction : Obligations.DecodeOfEncodeIsTheInstruction := by
  intro i
  cases i with
  | decode b =>
    exact (decode_append_op00 _).trans (congrArg Instr.decode (extractLsb'_setWidth_of_le (by decide) b))
  | encode x =>
    exact (decode_append_op01 _).trans (congrArg Instr.encode (extractLsb'_setWidth_of_le (by decide) x))
  | hdrPcm n => exact decode_append_op10 n
  | hdrG711 n => exact decode_append_op11 n

namespace Machine

/-! ### The wrapper's routing (10_state.md rule R9) -/

/-- The two bits of `op` in a word assembled from its fields: `op[1]` is bit 33 and `op[0]` is bit 32. -/
theorem op_bits_append (op : BitVec 2) (arg : Word32) :
    (op ++ arg).getLsbD 33 = op.getLsbD 1 ∧ (op ++ arg).getLsbD 32 = op.getLsbD 0 := by
  constructor <;> exact BitVec.getLsbD_append

/-- A unit's input is taken from the low bits of `arg`, whatever `op` is. -/
theorem extractLsb'_append_arg (op : BitVec 2) (arg : Word32) {w : Nat} (hw : w ≤ 32) :
    (op ++ arg).extractLsb' 0 w = arg.extractLsb' 0 w := by
  refine BitVec.eq_of_getLsbD_eq fun k hk => ?_
  rw [BitVec.getLsbD_extractLsb', BitVec.getLsbD_extractLsb', BitVec.getLsbD_append, if_pos (by omega)]

/-- The wrapper, written from R9, gives the result of the operation the decoder finds in the word. -/
theorem wrapperResult_eq_resultOf (rate : Word32) (c : CmdWord) : wrapperResult rate c = resultOf rate (decode c) := by
  obtain ⟨arg, rfl | rfl | rfl | rfl⟩ := cmdWord_cases c
  all_goals
    obtain ⟨h33, h32⟩ := op_bits_append _ arg
    rw [wrapperResult, h33, h32, extractLsb'_append_arg _ _ (Nat.le_refl 32), BitVec.extractLsb'_eq_self,
      extractLsb'_append_arg _ _ (show 16 ≤ 32 by decide), extractLsb'_append_arg _ _ (show 8 ≤ 32 by decide)]
  · rw [decode_append_op00]
    rfl
  · rw [decode_append_op01]
    rfl
  · rw [decode_append_op10]
    rfl
  · rw [decode_append_op11]
    rfl

/-- The word of an operation makes the ports give that operation's result. -/
theorem wrapperResult_encode (rate : Word32) (i : Instr) : wrapperResult rate (encode i) = resultOf rate i := by
  rw [wrapperResult_eq_resultOf, decodeOfEncodeIsTheInstruction]

/-! ### The log stays a function of the commands (10_state.md rule R5) -/

/-- Recording an operation's own result keeps the invariant. -/
theorem inv_record {s : State} (hs : s.Inv) (i : Instr) : (s.record i (resultOf s.pcmSampleRate i)).Inv := by
  intro a ha
  rw [record_log, List.mem_append, List.mem_singleton] at ha
  rcases ha with hold | rfl
  · exact hs a hold
  · exact (wrapperResult_encode _ i).symm

/-- Settles O16: a step leaves the state as it is or records the result of the command it takes. -/
theorem everyStepKeepsTheLogAFunctionOfCommands : Obligations.EveryStepKeepsTheLogAFunctionOfCommands := by
  intro s t hs hstep
  rcases step_cases hstep with ⟨-, rfl⟩ | ⟨c, rest, -, rfl⟩
  · exact hs
  · exact inv_record (s := { s with commands := rest }) hs (decode c)

end Machine

end Sys2Proof

namespace Sys2Proof

/-! ### The ignored bits of a command word (30_encoding.md rules R33 to R35) -/

/-- Keeping an operand's bits of `arg` and no others is masking. -/
theorem setWidth_extractLsb'_eq_and {w : Nat} (arg mask : Word32)
    (hmask : ∀ k, k < 32 → mask.getLsbD k = decide (k < w)) :
    BitVec.setWidth 32 (arg.extractLsb' 0 w) = arg &&& mask := by
  refine BitVec.eq_of_getLsbD_eq fun k hk => ?_
  rw [BitVec.getLsbD_and, hmask k hk]
  simp [hk, Bool.and_comm]

/-- A mask that keeps `op` acts on `arg` alone. -/
theorem append_and_keep_op (op : BitVec 2) (arg mask : Word32) :
    (op ++ arg) &&& (0b11#2 ++ mask) = op ++ (arg &&& mask) := by
  rw [Laws.TableRow.append_and, show op &&& 0b11#2 = op from BitVec.and_allOnes]

/-- Settles O3: for each op code the encoder writes `op` again above the operand's bits of `arg`, which is what the
mask of that operation leaves. -/
theorem encodeOfDecodeClearsOnlyIgnoredBits : Obligations.EncodeOfDecodeClearsOnlyIgnoredBits := by
  intro c
  obtain ⟨arg, rfl | rfl | rfl | rfl⟩ := cmdWord_cases c
  · rw [decode_append_op00]
    refine .trans ?_ (append_and_keep_op 0b00 arg 0xFF).symm
    exact congrArg (0b00#2 ++ ·) (setWidth_extractLsb'_eq_and arg 0xFF (by decide))
  · rw [decode_append_op01]
    refine .trans ?_ (append_and_keep_op 0b01 arg 0xFFFF).symm
    exact congrArg (0b01#2 ++ ·) (setWidth_extractLsb'_eq_and arg 0xFFFF (by decide))
  · rw [decode_append_op10]
    exact BitVec.and_allOnes.symm
  · rw [decode_append_op11]
    exact BitVec.and_allOnes.symm

/-- Every row's mask keeps `op` and nothing else, so that a row matches the words whose `op` is its pattern's. -/
theorem matchesWord_append (op : BitVec 2) (arg : Word32) :
    ∀ r ∈ opcodeTable, r.matchesWord (op ++ arg) = (op ++ 0#32 == r.pattern) := by
  have hmask : ∀ r ∈ opcodeTable, r.mask = 0x300000000#34 := by decide
  intro r hr
  rw [OpcodeRow.matchesWord, hmask r hr]
  exact congrArg (· == r.pattern) (Laws.TableRow.row_matches op arg)

/-- Settles O4: each op code is the pattern of one row, its operation's. -/
theorem everyWordMatchesExactlyItsOpcodeRow : Obligations.EveryWordMatchesExactlyItsOpcodeRow := by
  intro c
  obtain ⟨arg, rfl | rfl | rfl | rfl⟩ := cmdWord_cases c
  · rw [List.filter_congr (matchesWord_append 0b00#2 arg), decode_append_op00]
    rfl
  · rw [List.filter_congr (matchesWord_append 0b01#2 arg), decode_append_op01]
    rfl
  · rw [List.filter_congr (matchesWord_append 0b10#2 arg), decode_append_op10]
    rfl
  · rw [List.filter_congr (matchesWord_append 0b11#2 arg), decode_append_op11]
    rfl

/-- The mnemonic is decided by `op` alone. -/
theorem mnemonic_decode_congr {c c' : CmdWord} (h : opField c = opField c') :
    (decode c).mnemonic = (decode c').mnemonic := by
  simp only [decode, h]
  split
  · rfl
  · split
    · rfl
    · split <;> rfl

/-- No operation ignores a bit of `op`. -/
theorem opField_and_significantMask (c : CmdWord) (m : Mnemonic) : opField (c &&& significantMask m) = opField c := by
  have hmask : opField (significantMask m) = 0b11 := by cases m <;> decide
  rw [opField, BitVec.extractLsb'_and]
  exact (congrArg (opField c &&& ·) hmask).trans BitVec.and_allOnes

/-- Clearing a word's ignored bits does not change its operation. -/
theorem decode_and_significantMask (c : CmdWord) : decode (c &&& significantMask (decode c).mnemonic) = decode c := by
  rw [← encodeOfDecodeClearsOnlyIgnoredBits c, decodeOfEncodeIsTheInstruction]

/-- Two words that agree on the bits that are not ignored are one operation. -/
theorem decode_congr_of_significant {c c' : CmdWord}
    (h : c &&& significantMask (decode c).mnemonic = c' &&& significantMask (decode c).mnemonic) :
    decode c = decode c' := by
  have hop : opField c = opField c' := by
    rw [← opField_and_significantMask c, h, opField_and_significantMask]
  calc decode c = decode (c &&& significantMask (decode c).mnemonic) := (decode_and_significantMask c).symm
    _ = decode (c' &&& significantMask (decode c').mnemonic) := by rw [h, mnemonic_decode_congr hop]
    _ = decode c' := decode_and_significantMask c'

namespace Machine

/-- Settles O7: the op code selects the operand's bits, and words that agree on the bits that are not ignored decode to
one operation, whose result the step records. -/
theorem operandsComeFromArgAndIgnoredBitsHaveNoEffect : Obligations.OperandsComeFromArgAndIgnoredBitsHaveNoEffect := by
  refine ⟨fun arg => ⟨decode_append_op00 arg, decode_append_op01 arg, decode_append_op10 arg, decode_append_op11 arg⟩,
    fun s c c' rest h => ?_⟩
  rw [step_eq_record_of_commands (withCommands_commands s (c :: rest)),
    step_eq_record_of_commands (withCommands_commands s (c' :: rest)), decode_congr_of_significant h]
  rfl

/-- Settles O1: each word's `op` selects the operation and its operand's bits are the low bits of `arg`. -/
theorem writtenOutWordsDecode : Obligations.WrittenOutWordsDecode := by
  unfold Obligations.WrittenOutWordsDecode
  decide

/-- Settles O6: the decoder's one check fails. -/
theorem widerNumbersAreRejectedByName : Obligations.WiderNumbersAreRejectedByName :=
  fun _ hw => if_neg hw.not_gt

/-! ### One transaction (10_state.md rule R9) -/

/-- Settles O8: what the step records is what the operation's meaning records. -/
theorem stepRunsThePresentedCommand : Obligations.StepRunsThePresentedCommand := by
  intro s c rest h
  rw [step_eq_record_of_commands h, exec_eq_record]

/-- Settles O9: there is no command to take. -/
theorem stepWithNothingPresentedChangesNothing : Obligations.StepWithNothingPresentedChangesNothing := by
  intro s h
  rw [step, takeCommand_nil h, idle_eq]

/-- A number that fits the port is presented as the word of that value, before the commands already waiting. -/
theorem withFetchWord_commands {nbits w : Nat} (hbits : 34 ≤ nbits) (hw : w < 2 ^ 34) (s : State) :
    (s.withFetchWord nbits w).commands = BitVec.ofNat 34 w :: s.commands := by
  have hmod : w % 2 ^ nbits = w := Nat.mod_eq_of_lt (hw.trans_le (Nat.pow_le_pow_right (by decide) hbits))
  rw [State.withFetchWord, hmod]

/-- Settles O10: the placed word is the first command, and taking it leaves the state it was placed in. -/
theorem fetchWordRunsFirst : Obligations.FetchWordRunsFirst := by
  intro s w hw
  exact ⟨decodeTableWord_of_lt (by decide) hw,
    stepRunsThePresentedCommand _ _ _ (withFetchWord_commands (by decide) hw s)⟩

/-- Settles O11: reset is the power-up at the default rate. -/
theorem resetHasTheDefaultRateAndNoHistory : Obligations.ResetHasTheDefaultRateAndNoHistory :=
  ⟨powerUp_pcmSampleRate _, powerUp_commands _, powerUp_log _⟩

/-- Settles O17: the log at reset is empty. -/
theorem resetLogIsAFunctionOfCommands : Obligations.ResetLogIsAFunctionOfCommands := by
  intro a ha
  rw [State.reset, powerUp_log] at ha
  cases ha

/-- Settles O24: the reset answers the state it is given. -/
theorem systemResetChangesNothing : Obligations.SystemResetChangesNothing := by
  intro s
  rw [systemReset_eq]
  exact ⟨rfl, rfl⟩

/-- Settles O13: all an operation does is record its result. -/
theorem operationsOnlyAppendTheirResult : Obligations.OperationsOnlyAppendTheirResult := by
  intro i s t h
  rw [exec_eq_record, Host.Outcome.next.injEq] at h
  subst h
  exact ⟨record_pcmSampleRate .., record_commands .., _, record_log ..⟩

/-- Settles O14: each operation records its own result, whose kind and number of bytes are its constructor's. -/
theorem resultWidthIsTheOperations : Obligations.ResultWidthIsTheOperations := by
  intro i s
  refine ⟨resultOf s.pcmSampleRate i, exec_eq_record i s, ?_⟩
  cases i with
  | decode b => exact ⟨le16_length _, trivial⟩
  | encode x => exact ⟨rfl, trivial⟩
  | hdrPcm n => exact ⟨frame_toList_length _, trivial⟩
  | hdrG711 n => exact ⟨frame_toList_length _, trivial⟩

/-- A step with a command presented takes it and logs the answer of the ports to its word (R9). -/
theorem step_eq_answer {s : State} {c : CmdWord} {rest : List CmdWord} (h : s.commands = c :: rest) :
    step s = .next { s with commands := rest, log := s.log ++ [answer s.pcmSampleRate c] } := by
  rw [step_eq_record_of_commands h, answer, wrapperResult_eq_resultOf]
  rfl

/-- Settles O15: the wrapper's routing gives the result of the decoded operation. -/
theorem stepObservesTheWrappersResult : Obligations.StepObservesTheWrappersResult :=
  fun _ _ _ => step_eq_answer

/-- Settles O25: the codec ports are DECODE's and ENCODE's results, and recording the result is all an operation does. -/
theorem codecPortsCarryTheOperationsResults : Obligations.CodecPortsCarryTheOperationsResults :=
  ⟨fun b s => exec_eq_record (.decode b) s, fun x s => exec_eq_record (.encode x) s⟩

/-! ### Runs (10_state.md rules R5, R13, R16) -/

/-- Every step completes. -/
theorem exists_step_eq_next (s : State) : ∃ t, step s = .next t := by
  rcases h : s.commands with _ | ⟨c, rest⟩
  · exact ⟨s, stepWithNothingPresentedChangesNothing s h⟩
  · exact ⟨_, step_eq_answer h⟩

/-- A run continues from the state its first step answers. -/
theorem runSteps_succ_of_step {s t : State} (h : step s = .next t) (k : Nat) : runSteps (k + 1) s = runSteps k t := by
  rw [runSteps_succ, h]

/-- Every run completes. -/
theorem exists_runSteps_eq_next : ∀ (k : Nat) (s : State), ∃ t, runSteps k s = .next t
  | 0, s => ⟨s, runSteps_zero s⟩
  | k + 1, s => by
    obtain ⟨t, ht⟩ := exists_step_eq_next s
    rw [runSteps_succ_of_step ht]
    exact exists_runSteps_eq_next k t

/-- Settles O12: recording a result never fails, so neither does a step nor a run of them. -/
theorem noStepEverStops : Obligations.NoStepEverStops :=
  ⟨fun i s => ⟨_, exec_eq_record i s⟩, exists_step_eq_next, exists_runSteps_eq_next⟩

/-- What every step keeps, every run keeps. -/
theorem runSteps_induction {P : State → Prop} (hstep : ∀ s t, P s → step s = .next t → P t) :
    ∀ (k : Nat) (s t : State), P s → runSteps k s = .next t → P t
  | 0, s, t, hs, h => by
    rw [runSteps_zero, Host.Outcome.next.injEq] at h
    exact h ▸ hs
  | k + 1, s, t, hs, h => by
    obtain ⟨u, hu⟩ := exists_step_eq_next s
    rw [runSteps_succ_of_step hu] at h
    exact runSteps_induction hstep k u t (hstep s u hs hu) h

theorem step_pcmSampleRate {s t : State} (h : step s = .next t) : t.pcmSampleRate = s.pcmSampleRate := by
  rcases step_cases h with ⟨-, rfl⟩ | ⟨c, rest, -, rfl⟩
  · rfl
  · exact record_pcmSampleRate ..

/-- Settles O19: every step keeps the rate. -/
theorem noRunChangesTheSampleRate : Obligations.NoRunChangesTheSampleRate := by
  intro k s t h
  exact runSteps_induction (P := fun u => u.pcmSampleRate = s.pcmSampleRate)
    (fun _ _ hu hstep => (step_pcmSampleRate hstep).trans hu) k s t rfl h

/-- A run of all the commands presented logs the answer to each, in order (R5, R9). -/
theorem runSteps_withCommands : ∀ (cs : List CmdWord) (s : State),
    runSteps cs.length (s.withCommands cs) =
      .next { s with commands := [], log := s.log ++ cs.map (answer s.pcmSampleRate) }
  | [], s => by
    rw [List.length_nil, runSteps_zero, List.map_nil, List.append_nil]
    rfl
  | c :: cs, s => by
    rw [List.length_cons, runSteps_succ_of_step (step_eq_answer (withCommands_commands s (c :: cs)))]
    refine (runSteps_withCommands cs { s with log := s.log ++ [answer s.pcmSampleRate c] }).trans ?_
    rw [List.append_assoc]
    rfl

/-- Settles O18: the state presents its own commands. -/
theorem runLogsTheAnswerOfEachCommandInOrder : Obligations.RunLogsTheAnswerOfEachCommandInOrder :=
  fun s => runSteps_withCommands s.commands s

/-- The answers to the commands that satisfy a predicate are the answers found beside those commands. -/
theorem filter_zip_map_snd {α β : Type} (l : List α) (f : α → β) (p : α → Bool) :
    ((l.zip (l.map f)).filter (fun q => p q.1)).map Prod.snd = (l.filter p).map f := by
  induction l with
  | nil => rfl
  | cons x xs ih =>
    rw [List.map_cons, List.zip_cons_cons, List.filter_cons, List.filter_cons]
    split
    · rw [List.map_cons, List.map_cons, ih]
    · exact ih

/-- Settles O22: the answer to a command is computed from its word and the rate, so the answers beside one host's
commands are the answers to that host's commands presented alone. -/
theorem interleavedHostsObserveWhatTheyWouldAlone : Obligations.InterleavedHostsObserveWhatTheyWouldAlone := by
  intro s tagged
  have hrun (l : List (Nat × CmdWord)) := runSteps_withCommands (l.map Prod.snd) s
  simp only [List.length_map, List.map_map] at hrun
  refine ⟨_, tagged.map (answer s.pcmSampleRate ∘ Prod.snd), hrun tagged, rfl, List.length_map _, fun host => ?_⟩
  refine ⟨_, hrun (tagged.filter fun p => p.1 == host), ?_⟩
  rw [filter_zip_map_snd tagged _ fun p => p.1 == host]

/-! ### Several blocks side by side (10_state.md rule R16) -/

/-- A transaction of block `k` replaces its state by the step of that state. -/
theorem stepInstance_eq {k : Nat} {sys : List State} {s t : State} (hs : sys[k]? = some s) (ht : step s = .next t) :
    stepInstance k sys = .next (sys.set k t) := by
  simp only [stepInstance, hs, ht]

theorem getElem?_set_self_of_some {α : Type} {l : List α} {k : Nat} {a : α} (h : l[k]? = some a) (b : α) :
    (l.set k b)[k]? = some b := by
  obtain ⟨hk, -⟩ := List.getElem?_eq_some_iff.1 h
  exact List.getElem?_set_self hk

/-- A transaction of block `j` and then one of another block `k`: the first leaves the state that the second steps. -/
theorem stepTwo_eq {j k : Nat} {sys : List State} {sj sk tj tk : State} (hne : j ≠ k) (hj : sys[j]? = some sj)
    (hk : sys[k]? = some sk) (htj : step sj = .next tj) (htk : step sk = .next tk) :
    stepTwo j k sys = .next ((sys.set j tj).set k tk) := by
  have hk' : (sys.set j tj)[k]? = some sk := by rw [List.getElem?_set_ne hne, hk]
  simp only [stepTwo, stepInstance_eq hj htj, stepInstance_eq hk' htk]

/-- Settles O23: a transaction replaces one entry of the list by the step of it, and replacing two different entries
commutes. -/
theorem instancesDoNotAffectEachOther : Obligations.InstancesDoNotAffectEachOther := by
  refine ⟨fun k sys s hs => ?_, fun j k sys sj sk hne hj hk => ?_⟩
  · obtain ⟨t, ht⟩ := exists_step_eq_next s
    exact ⟨t, sys.set k t, ht, stepInstance_eq hs ht, List.length_set, getElem?_set_self_of_some hs t,
      fun l hl => List.getElem?_set_ne hl.symm⟩
  · obtain ⟨tj, htj⟩ := exists_step_eq_next sj
    obtain ⟨tk, htk⟩ := exists_step_eq_next sk
    have hk' : (sys.set j tj)[k]? = some sk := by rw [List.getElem?_set_ne hne, hk]
    refine ⟨tj, tk, (sys.set j tj).set k tk, htj, htk, stepTwo_eq hne hj hk htj htk, ?_, ?_, ?_,
      getElem?_set_self_of_some hk' tk, fun l hlj hlk => ?_⟩
    · rw [stepTwo_eq hne.symm hk hj htk htj, List.set_comm _ _ hne]
    · rw [List.length_set, List.length_set]
    · rw [List.getElem?_set_ne hne.symm, getElem?_set_self_of_some hj]
    · rw [List.getElem?_set_ne hlk.symm, List.getElem?_set_ne hlj.symm]

end Machine

end Sys2Proof

namespace Sys2Proof.Machine

/-! ### The bytes of the linear-PCM frame (42_container_framer.md rule R53) -/

/-- The parts of the linear-PCM variant byte by byte: only the two sizes, the rate and the byte rate depend on the count
and the rate. -/
theorem headerParts_pcmFields (r n : Word32) :
    let c := chunkSizeOf n
    let q := pcmByteRate r
    headerParts (pcmFields r n) =
      [0x52, 0x49, 0x46, 0x46, c.extractLsb' 0 8, c.extractLsb' 8 8, c.extractLsb' 16 8, c.extractLsb' 24 8] ++
      [0x57, 0x41, 0x56, 0x45, 0x66, 0x6D, 0x74, 0x20] ++
      [0x12, 0x00, 0x00, 0x00, 0x01, 0x00, 0x01, 0x00] ++
      [r.extractLsb' 0 8, r.extractLsb' 8 8, r.extractLsb' 16 8, r.extractLsb' 24 8] ++
      [q.extractLsb' 0 8, q.extractLsb' 8 8, q.extractLsb' 16 8, q.extractLsb' 24 8] ++
      [0x02, 0x00, 0x10, 0x00, 0x00, 0x00, 0x64, 0x61] ++
      [0x74, 0x61, n.extractLsb' 0 8, n.extractLsb' 8 8, n.extractLsb' 16 8, n.extractLsb' 24 8] := by
  have hsize : le32 Config.fmtSize = [0x12, 0x00, 0x00, 0x00] := by decide
  -- The format code and the channel count are both 1.
  have hone : le16 1 = [0x01, 0x00] := by decide
  have halign : le16 Config.pcmBlockAlign = [0x02, 0x00] := by decide
  have hbits : le16 Config.pcmBits = [0x10, 0x00] := by decide
  have hext : le16 Config.extSize = [0x00, 0x00] := by decide
  simp only [headerParts, pcmFields, hsize, hone, halign, hbits, hext]
  rfl

/-- Settles O40: the word's fields select HDR_PCM, its meaning records its frame and nothing else, and that frame is the
parts of the linear-PCM variant's fields. -/
theorem hdrPcmObservesTheR53Bytes : Obligations.HdrPcmObservesTheR53Bytes := by
  refine ⟨decode_append_op10, fun n s => ⟨exec_eq_record (.hdrPcm n) s, ?_⟩⟩
  rw [frameOut_false, hdrPcmFrame_toList, headerParts_pcmFields, chunkSizeOf, pcmByteRate, trunc32, trunc32]

/-! ### Fields read back and what a frame depends on (R32, R55, R57, R13) -/

theorem pcmByteRate_toNat (r : Word32) : (pcmByteRate r).toNat = r.toNat * 2 % 2 ^ 32 := BitVec.toNat_ofNat _ _

/-- Settles O42: each read answers the rate field of its variant at that offset. -/
theorem rateFieldsReadBack : Obligations.RateFieldsReadBack := by
  intro r n
  simp only [frameOut_true, frameOut_false, hdrG711Frame_toList, hdrPcmFrame_toList]
  exact ⟨⟨memRead_sampleRate _, memRead_sampleRate _⟩,
    ⟨memRead_byteRate _, (memRead_byteRate _).trans (congrArg some (pcmByteRate_toNat r))⟩,
    ⟨memRead_blockAlign _, memRead_blockAlign _⟩⟩

/-- Settles O44: the sum passes `2 ^ 32` once, and the data size is not a sum. -/
theorem chunkSizeWrapsFrom0xFFFFFFDA : Obligations.ChunkSizeWrapsFrom0xFFFFFFDA := by
  intro r n sel hwrap
  refine ⟨?_, memRead_frameOut_dataSize r n sel⟩
  have hmod : (n.toNat + 38) % 2 ^ 32 = n.toNat + 38 - 2 ^ 32 := by
    have := n.isLt
    omega
  rw [memRead_frameOut_chunkSize, hmod]

/-- Settles O45: what the MemWrites leave is the header's parts, in which no byte of the starting frame occurs. -/
theorem marshalOverwritesEveryByte : Obligations.MarshalOverwritesEveryByte := by
  intro h f f'
  exact Vector.toList_inj.1 ((marshal_toList h f).trans (marshal_toList h f').symm)

/-- Where the linear-PCM fields of two rates give the same bytes over a range, the frames agree at each offset of it. -/
theorem hdrPcmFrame_agree_of_headerParts {r r' n : Word32} {a k j : Nat}
    (h : ((headerParts (pcmFields r n)).drop a).take k = ((headerParts (pcmFields r' n)).drop a).take k)
    (hj : j < 46) (ha : a ≤ j) (hk : j < a + k) : (hdrPcmFrame r n)[j] = (hdrPcmFrame r' n)[j] := by
  rw [← hdrPcmFrame_toList, ← hdrPcmFrame_toList] at h
  exact frame_range_eq _ _ a k h j hj ha hk

/-- The parts before the sample rate. -/
theorem headerParts_take24 (h : HeaderFields) :
    ((headerParts h).drop 0).take 24 = tagRiff ++ le32 h.chunkSize ++ tagWave ++ tagFmt ++ le32 h.fmtSize ++
      le16 h.formatCode ++ le16 h.channels := rfl

/-- The parts from the block align on. -/
theorem headerParts_drop32 (h : HeaderFields) :
    ((headerParts h).drop 32).take 14 = le16 h.blockAlign ++ le16 h.bitsPerSample ++ le16 h.extensionSize ++
      tagData ++ le32 h.dataSize := rfl

/-- A linear-PCM frame holds its rate, so that it determines it. -/
theorem hdrPcmFrame_rate_injective {r r' n : Word32} (h : hdrPcmFrame r n = hdrPcmFrame r' n) : r = r' := by
  have hread := congrArg (fun f : Frame => memRead f.toList 24 4) h
  simp only [hdrPcmFrame_toList, memRead_sampleRate, Option.some.injEq] at hread
  exact BitVec.eq_of_toNat_eq hread

/-- Only HDR_PCM's result depends on the rate (R13). -/
theorem resultOf_rate_irrelevant {i : Instr} (hi : ∀ n, i ≠ .hdrPcm n) (rate rate' : Word32) :
    resultOf rate i = resultOf rate' i := by
  cases i with
  | decode b => rfl
  | encode x => rfl
  | hdrPcm n => exact absurd rfl (hi n)
  | hdrG711 n => rfl

/-- Settles O21: the parts before the sample rate and from the block align on do not depend on the rate, and the sample
rate is read back. -/
theorem onlyHdrPcmReadsTheRateAtOffsets24To31 : Obligations.OnlyHdrPcmReadsTheRateAtOffsets24To31 := by
  refine ⟨fun i s s' hi => ⟨_, exec_eq_record i s, ?_⟩, fun r r' n j hj hrange => ?_, fun r r' n h => ?_⟩
  · rw [resultOf_rate_irrelevant hi s.pcmSampleRate s'.pcmSampleRate]
    exact exec_eq_record i s'
  · rw [frameOut_false, frameOut_false]
    rcases hrange with hlt | hge
    · exact hdrPcmFrame_agree_of_headerParts (a := 0) (k := 24)
        (by simp only [headerParts_take24, pcmFields]) hj j.zero_le (by omega)
    · exact hdrPcmFrame_agree_of_headerParts (a := 32) (k := 14)
        (by simp only [headerParts_drop32, pcmFields]) hj hge hj
  · rw [frameOut_false, frameOut_false] at h
    exact hdrPcmFrame_rate_injective h

/-! ### The flat bus (10_state.md rule R8) -/

/-- A little-endian number holds byte `i` in the digit of `256 ^ i`. -/
theorem leNat_div_mod : ∀ (bs : List Byte) (i : Nat) (hi : i < bs.length),
    leNat bs / 256 ^ i % 256 = bs[i].toNat
  | b :: bs, 0, _ => by
    have := b.isLt
    rw [leNat, List.getElem_cons_zero]
    omega
  | b :: bs, i + 1, hi => by
    have hb : (b.toNat + 256 * leNat bs) / 256 = leNat bs := by
      have := b.isLt
      omega
    rw [leNat, Nat.pow_succ', ← Nat.div_div_eq_div_mul, hb, List.getElem_cons_succ]
    exact leNat_div_mod bs i (Nat.lt_of_succ_lt_succ hi)

/-- The 46 bytes fit the 368 bits of the flat bus. -/
theorem frameBits_toNat (f : Frame) : (frameBits f).toNat = leNat f.toList := by
  have hfit : leNat f.toList < (2 ^ 8) ^ 46 := by
    have h := leNat_lt f.toList
    rwa [frame_toList_length] at h
  rw [← Nat.pow_mul, show 8 * 46 = 368 from rfl] at hfit
  exact (BitVec.toNat_ofNat _ _).trans (Nat.mod_eq_of_lt hfit)

/-- Byte `i` of a frame lies in bits `8i` to `8i+7` of its flat bus. -/
theorem frameBits_extractLsb' (f : Frame) (i : Nat) (hi : i < 46) : (frameBits f).extractLsb' (8 * i) 8 = f[i] := by
  have hlen : i < f.toList.length := by rwa [frame_toList_length]
  apply BitVec.eq_of_toNat_eq
  rw [BitVec.extractLsb'_toNat, frameBits_toNat, Nat.shiftRight_eq_div_pow, Nat.pow_mul 2 8 i]
  exact (leNat_div_mod f.toList i hlen).trans (congrArg BitVec.toNat (Vector.getElem_toList hlen))

/-- Settles O26: each header operation records the frame of its `hdr_sel`, whose bytes are the digits of the bus. -/
theorem marshalPortSelectsTheVariantAndItsFlatBus : Obligations.MarshalPortSelectsTheVariantAndItsFlatBus :=
  ⟨fun n s => exec_eq_record (.hdrPcm n) s, fun n s => exec_eq_record (.hdrG711 n) s, frameBits_extractLsb'⟩

end Sys2Proof.Machine

namespace Sys2Proof.Machine

/-! ### The magnitudes and their intervals (40_codec_decode.md rules R40, R41)

The magnitude of segment `e` and step `m`, with the bias, is the middle of the interval from `(16 + m) * 2 ^ (e + 3)` to
`(17 + m) * 2 ^ (e + 3)`. The intervals of increasing codes `16 * e + m` follow each other, which orders the magnitudes. -/

/-- The interval of a smaller code ends before that of a larger code begins. -/
theorem interval_end_le_of_code_lt {e m e' m' : Nat} (hm : m < 16) (hm' : m' < 16)
    (h : 16 * e + m < 16 * e' + m') : (17 + m) * 2 ^ (e + 3) ≤ (16 + m') * 2 ^ (e' + 3) := by
  rcases Nat.lt_or_ge e e' with he | he
  · calc (17 + m) * 2 ^ (e + 3) ≤ 32 * 2 ^ (e + 3) := Nat.mul_le_mul_right _ (by omega)
      _ = 16 * 2 ^ (e + 1 + 3) := by ring
      _ ≤ (16 + m') * 2 ^ (e' + 3) :=
        Nat.mul_le_mul (Nat.le_add_right 16 m') (Nat.pow_le_pow_right (by decide) (by omega))
  · obtain rfl : e = e' := by omega
    exact Nat.mul_le_mul_right _ (by omega)

/-- The magnitude lies `2 ^ (e + 2)` above the bottom of its interval. -/
theorem decodeMagnitude_add_bias_eq_bottom (e : Nat) {m : Nat} (hm : m < 16) :
    decodeMagnitude e m + 132 = (16 + m) * 2 ^ (e + 3) + 2 ^ (e + 2) := by
  rw [decodeMagnitude_add_bias e hm]
  ring

/-- The magnitude lies `2 ^ (e + 2)` below the end of its interval. -/
theorem decodeMagnitude_add_bias_eq_top (e : Nat) {m : Nat} (hm : m < 16) :
    decodeMagnitude e m + 132 + 2 ^ (e + 2) = (17 + m) * 2 ^ (e + 3) := by
  rw [decodeMagnitude_add_bias e hm]
  ring

theorem decodeMagnitude_lt_of_code_lt {e m e' m' : Nat} (hm : m < 16) (hm' : m' < 16)
    (h : 16 * e + m < 16 * e' + m') : decodeMagnitude e m < decodeMagnitude e' m' := by
  have htop := decodeMagnitude_add_bias_eq_top e hm
  have hbottom := decodeMagnitude_add_bias_eq_bottom e' hm'
  have hle := interval_end_le_of_code_lt hm hm' h
  have hpos := Nat.two_pow_pos (e + 2)
  have hpos' := Nat.two_pow_pos (e' + 2)
  omega

/-- Different codes have different magnitudes. -/
theorem code_eq_of_decodeMagnitude_eq {e m e' m' : Nat} (hm : m < 16) (hm' : m' < 16)
    (h : decodeMagnitude e m = decodeMagnitude e' m') : 16 * e + m = 16 * e' + m' := by
  rcases Nat.lt_trichotomy (16 * e + m) (16 * e' + m') with hlt | heq | hgt
  · exact absurd h (decodeMagnitude_lt_of_code_lt hm hm' hlt).ne
  · exact heq
  · exact absurd h (decodeMagnitude_lt_of_code_lt hm' hm hgt).ne'

theorem decodeT3_le {e m : Nat} (he : e < 8) (hm : m < 16) : decodeT3 e m ≤ 32256 := by
  rw [decodeT3_eq e hm]
  calc (2 * m + 33) * 2 ^ (e + 2) ≤ 63 * 2 ^ 9 :=
        Nat.mul_le_mul (by omega) (Nat.pow_le_pow_right (by decide) (by omega))
    _ = 32256 := rfl

theorem decodeMagnitude_le {e m : Nat} (he : e < 8) (hm : m < 16) : decodeMagnitude e m ≤ 32124 :=
  Nat.sub_le_sub_right (decodeT3_le he hm) Config.bias

/-- A value that fits 16 bits is the value of its pattern (R29). -/
theorem u16_toInt {v : Int} (h : v.natAbs ≤ 32124) : (u16 v).toInt = v :=
  BitVec.toInt_ofInt_eq_self (by decide) (by norm_num; omega) (by norm_num; omega)

/-- Settles O28: the closed forms of the intermediates, at their largest for `e = 7` and `m = 15`. -/
theorem decodeIntermediatesStayInRange : Obligations.DecodeIntermediatesStayInRange := by
  intro e he m hm
  have ht2 := decodeT2_eq hm
  have hle := decodeMagnitude_le he hm
  refine ⟨?_, ?_, ?_, bias_le_decodeT3 e hm, decodeT3_le he hm, Nat.sub_add_cancel (bias_le_decodeT3 e hm), hle,
    u16_toInt ?_⟩
  · rw [decodeT1_eq hm, Nat.add_comm]
  all_goals omega

/-! ### The value of a byte's sample (40_codec_decode.md rules R39, R42, R43) -/

theorem decodeValue_eq (f : MuFields) :
    decodeValue f =
      if f.sign then -(decodeMagnitude f.exponent.toNat f.mantissa.toNat : Int)
      else decodeMagnitude f.exponent.toNat f.mantissa.toNat := by
  rw [decodeValue, Int.zero_sub]

theorem decodeValue_natAbs (f : MuFields) :
    (decodeValue f).natAbs = decodeMagnitude f.exponent.toNat f.mantissa.toNat := by
  rw [decodeValue_eq]
  split <;> omega

theorem decodeValue_natAbs_le (f : MuFields) : (decodeValue f).natAbs ≤ 32124 := by
  rw [decodeValue_natAbs]
  exact decodeMagnitude_le f.exponent.isLt f.mantissa.isLt

/-- DECODE's sample has the value of the byte's fields. -/
theorem muDecode_toInt (b : Byte) : (muDecode b).toInt = decodeValue (fieldsOfWire b) :=
  u16_toInt (decodeValue_natAbs_le _)

/-- The code `16 * e + m` of a byte is its seven low bits, inverted. -/
theorem code_fieldsOfWire (b : Byte) :
    16 * (fieldsOfWire b).exponent.toNat + (fieldsOfWire b).mantissa.toNat = (255 - b.toNat) % 128 := by
  rw [fieldsOfWire_exponent_toNat, fieldsOfWire_mantissa_toNat]
  omega

/-- The bytes from 0x80 up are those of the samples that are not negated. -/
theorem fieldsOfWire_sign_eq_false_iff (b : Byte) : (fieldsOfWire b).sign = false ↔ 0x80 ≤ b.toNat := by
  rw [fieldsOfWire_sign, decide_eq_false_iff_not]
  have := b.isLt
  omega

/-- The bytes below 0x80 are those of the negated samples. -/
theorem fieldsOfWire_sign_eq_true_iff (b : Byte) : (fieldsOfWire b).sign = true ↔ b.toNat < 0x80 := by
  rw [fieldsOfWire_sign, decide_eq_true_iff]
  omega

/-- The magnitude of a byte's sample. -/
def wireMagnitude (b : Byte) : Nat := decodeMagnitude (fieldsOfWire b).exponent.toNat (fieldsOfWire b).mantissa.toNat

theorem muDecode_toInt_of_ge {b : Byte} (h : 0x80 ≤ b.toNat) : (muDecode b).toInt = wireMagnitude b := by
  rw [muDecode_toInt, decodeValue_eq, (fieldsOfWire_sign_eq_false_iff b).2 h]
  rfl

theorem muDecode_toInt_of_lt {b : Byte} (h : b.toNat < 0x80) : (muDecode b).toInt = -(wireMagnitude b : Int) := by
  rw [muDecode_toInt, decodeValue_eq, (fieldsOfWire_sign_eq_true_iff b).2 h]
  rfl

/-- Magnitudes grow as the seven low bits of the wire byte fall. -/
theorem wireMagnitude_lt {b b' : Byte} (h : (255 - b.toNat) % 128 < (255 - b'.toNat) % 128) :
    wireMagnitude b < wireMagnitude b' :=
  decodeMagnitude_lt_of_code_lt (BitVec.isLt _) (BitVec.isLt _) (by rwa [code_fieldsOfWire, code_fieldsOfWire])

theorem wireMagnitude_injective {b b' : Byte} (h : wireMagnitude b = wireMagnitude b') :
    (255 - b.toNat) % 128 = (255 - b'.toNat) % 128 := by
  rw [← code_fieldsOfWire, ← code_fieldsOfWire]
  exact code_eq_of_decodeMagnitude_eq (BitVec.isLt _) (BitVec.isLt _) h

/-- The bytes of fields given as numbers: the code is subtracted from 0xFF, or from 0x7F for a negated sample. -/
theorem fieldsOfWire_ofNat {e m : Nat} (he : e < 8) (hm : m < 16) (sign : Bool) :
    fieldsOfWire (BitVec.ofNat 8 ((if sign then 0x7F else 0xFF) - (16 * e + m))) =
      { sign := sign, exponent := BitVec.ofNat 3 e, mantissa := BitVec.ofNat 4 m } := by
  rw [← fieldsOfWire_wireOfFields { sign := sign, exponent := BitVec.ofNat 3 e, mantissa := BitVec.ofNat 4 m },
    wireOfFields_eq]
  simp only [BitVec.toNat_ofNat, Nat.mod_eq_of_lt he, Nat.mod_eq_of_lt hm]
  congr 2
  cases sign with
  | false => simp
  | true => simp; omega

/-- Every magnitude is the value of the byte of its fields, and so is its negative. -/
theorem muDecode_ofNat_toInt {e m : Nat} (he : e < 8) (hm : m < 16) (sign : Bool) :
    (muDecode (BitVec.ofNat 8 ((if sign then 0x7F else 0xFF) - (16 * e + m)))).toInt =
      if sign then -(decodeMagnitude e m : Int) else decodeMagnitude e m := by
  rw [muDecode_toInt, fieldsOfWire_ofNat he hm, decodeValue_eq]
  simp only [BitVec.toNat_ofNat, Nat.mod_eq_of_lt he, Nat.mod_eq_of_lt hm]

/-- Settles O29: the closed form gives the spacing, the intervals give the order, and the two wire bytes are those of
the fields. -/
theorem decodeSegmentTable : Obligations.DecodeSegmentTable := by
  refine ⟨fun e he m hm => ⟨decodeMagnitude_add_bias e hm, decodeMagnitude_add_bias_eq_bottom e hm,
      muDecode_ofNat_toInt he hm false, muDecode_ofNat_toInt he hm true⟩,
    fun e _ m hm => ?_, fun e _ => ?_, fun e m e' m' _ hm hm' h => decodeMagnitude_lt_of_code_lt hm hm' h⟩
  · have h := decodeMagnitude_add_bias e (m := m) (by omega)
    have h' := decodeMagnitude_add_bias e (m := m + 1) (by omega)
    have hstep : (2 * (m + 1) + 33) * 2 ^ (e + 2) = (2 * m + 33) * 2 ^ (e + 2) + 2 ^ (e + 3) := by ring
    omega
  · have h := decodeMagnitude_add_bias e (m := 15) (by decide)
    have h' := decodeMagnitude_add_bias (e + 1) (m := 0) (by decide)
    have hgap : (2 * 0 + 33) * 2 ^ (e + 1 + 2) = (2 * 15 + 33) * 2 ^ (e + 2) + 12 * 2 ^ e := by ring
    omega

/-- The sample 0 has the code 0. -/
theorem wireMagnitude_eq_zero {b : Byte} (h : wireMagnitude b = 0) : b = 0xFF ∨ b = 0x7F := by
  have hzero : wireMagnitude 0xFF = 0 := by decide
  have hcode : (255 - b.toNat) % 128 = 0 := wireMagnitude_injective (h.trans hzero.symm)
  have hlt := b.isLt
  rcases (show b.toNat = 255 ∨ b.toNat = 127 by omega) with hb | hb
  · exact .inl (BitVec.eq_of_toNat_eq hb)
  · exact .inr (BitVec.eq_of_toNat_eq hb)

/-- A magnitude of 32124 or more has the largest code. -/
theorem code_of_le_wireMagnitude {b : Byte} (h : 32124 ≤ wireMagnitude b) : (255 - b.toNat) % 128 = 127 := by
  by_contra hne
  have htop : wireMagnitude 0x00 = 32124 := by decide
  have hlt : wireMagnitude b < wireMagnitude 0x00 := wireMagnitude_lt (by
    rw [show (255 - (0x00 : Byte).toNat) % 128 = 127 from rfl]
    omega)
  omega

/-- Settles O30: bytes of one sign with one sample have one code, and bytes of both signs only share the sample 0. -/
theorem decodeIdentifiesOnlyTheTwoZeroBytes : Obligations.DecodeIdentifiesOnlyTheTwoZeroBytes := by
  refine ⟨by decide, by decide, fun b b' h => ?_, fun b => ⟨fun h => ?_, fun h => by subst h; decide⟩⟩
  · have hval : (muDecode b).toInt = (muDecode b').toInt := congrArg BitVec.toInt h
    have hb := b.isLt
    have hb' := b'.isLt
    rcases Nat.lt_or_ge b.toNat 0x80 with hs | hs <;> rcases Nat.lt_or_ge b'.toNat 0x80 with hs' | hs'
    · rw [muDecode_toInt_of_lt hs, muDecode_toInt_of_lt hs'] at hval
      have hcode := wireMagnitude_injective (b := b) (b' := b') (by omega)
      exact .inl (BitVec.eq_of_toNat_eq (by omega))
    · rw [muDecode_toInt_of_lt hs, muDecode_toInt_of_ge hs'] at hval
      exact .inr ⟨wireMagnitude_eq_zero (by omega), wireMagnitude_eq_zero (by omega)⟩
    · rw [muDecode_toInt_of_ge hs, muDecode_toInt_of_lt hs'] at hval
      exact .inr ⟨wireMagnitude_eq_zero (by omega), wireMagnitude_eq_zero (by omega)⟩
    · rw [muDecode_toInt_of_ge hs, muDecode_toInt_of_ge hs'] at hval
      have hcode := wireMagnitude_injective (b := b) (b' := b') (by omega)
      exact .inl (BitVec.eq_of_toNat_eq (by omega))
  · have hneg : b.toNat < 0x80 := by
      by_contra hge
      have hval := muDecode_toInt_of_ge (b := b) (by omega)
      rw [linOut_eq] at h
      omega
    have hval := muDecode_toInt_of_lt hneg
    have hcode := code_of_le_wireMagnitude (b := b) (by rw [linOut_eq] at h; omega)
    exact BitVec.eq_of_toNat_eq (show b.toNat = 0 by omega)

/-- Flipping bit 7 of a wire byte flips the sign and leaves the other two fields (R28). -/
theorem fieldsOfWire_xor_sign (b : Byte) :
    fieldsOfWire (b ^^^ 0x80) = { fieldsOfWire b with sign := !(fieldsOfWire b).sign } := by
  revert b
  decide

theorem decodeValue_flip_sign (f : MuFields) : decodeValue { f with sign := !f.sign } = 0 - decodeValue f := by
  obtain ⟨sign, e, m⟩ := f
  rw [decodeValue_eq, decodeValue_eq, Int.zero_sub]
  cases sign with
  | false => rfl
  | true => exact (Int.neg_neg _).symm

/-- Settles O31: a byte's fields are any three in range, flipping the sign negates, and the magnitudes are ordered as
the seven low bits, inverted. -/
theorem decodeRangeSymmetryAndOrder : Obligations.DecodeRangeSymmetryAndOrder := by
  refine ⟨fun b => ?_, fun v => ⟨?_, ?_⟩, fun b => ?_, fun b b' hge hlt => ?_, fun b b' hlt hlt' => ?_⟩
  · have hle := decodeValue_natAbs_le (fieldsOfWire b)
    rw [linOut_eq, muDecode_toInt]
    omega
  · rintro ⟨b, rfl⟩
    refine ⟨_, _, (fieldsOfWire b).exponent.isLt, (fieldsOfWire b).mantissa.isLt, ?_⟩
    rw [linOut_eq, muDecode_toInt, ← decodeValue_natAbs]
    omega
  · rintro ⟨e, m, he, hm, hv | hv⟩ <;> rw [hv]
    · exact ⟨_, muDecode_ofNat_toInt he hm false⟩
    · exact ⟨_, muDecode_ofNat_toInt he hm true⟩
  · rw [linOut_eq, linOut_eq, muDecode_toInt, ← decodeValue_flip_sign, ← fieldsOfWire_xor_sign]
    rfl
  · have hmag : wireMagnitude b' < wireMagnitude b := wireMagnitude_lt (by have := b'.isLt; omega)
    rw [linOut_eq, linOut_eq, muDecode_toInt_of_ge hge, muDecode_toInt_of_ge (by omega)]
    omega
  · have hmag : wireMagnitude b' < wireMagnitude b := wireMagnitude_lt (by omega)
    rw [linOut_eq, linOut_eq, muDecode_toInt_of_lt hlt', muDecode_toInt_of_lt (by omega)]
    omega

end Sys2Proof.Machine

namespace Sys2Proof.Machine

/-! ### ENCODE's magnitude and its scan (41_codec_encode.md rules R45, R47) -/

/-- A negative sample's magnitude is its negated pattern, read as unsigned. -/
theorem natAbs_toInt_of_neg {x : Sample} (h : x.toInt < 0) : x.toInt.natAbs = (-x).toNat := by
  rw [BitVec.toInt_eq_toNat_cond] at *
  rw [BitVec.toNat_neg]
  split at * <;> omega

/-- Settles O33: −32768 is no exception, since the magnitude is not cut to 15 bits before the clamp. -/
theorem encodeMagnitudeIsUnsigned : Obligations.EncodeMagnitudeIsUnsigned := by
  refine ⟨fun x h => (encodeMag0_eq_natAbs x).trans (natAbs_toInt_of_neg h), encodeMag0_eq_natAbs, by decide, by decide,
    ?_⟩
  have hlow : muEncode 0x8000 = 0x00 := muEncode_of_toInt_le_neg_clip (by decide)
  have hlimit : muEncode (BitVec.ofInt 16 (-32635)) = 0x00 := muEncode_of_toInt_le_neg_clip (by decide)
  exact hlow.trans hlimit.symm

theorem le_encodeBiased (x : Sample) : 132 ≤ encodeBiased x := Nat.le_add_left _ _

/-- Settles O35: the scan's argument has its highest set bit at 7 or above, which is the bit the scan finds. -/
theorem exponentScanIsTheClosedForm : Obligations.ExponentScanIsTheClosedForm := by
  refine ⟨fun x => ⟨le_encodeBiased x, encodeBiased_le x⟩, fun bm hlow hhigh => ?_⟩
  have hbm : bm ≠ 0 := by omega
  have hexp := encodeExponent_eq hbm hhigh
  have hlog : 7 ≤ Nat.log2 bm := (Nat.le_log2 hbm).2 (by omega)
  refine ⟨hexp, hlog, encodeExponent_le bm, ?_, encodeMantissa_eq bm _⟩
  rw [hexp, Nat.sub_add_cancel hlog]
  exact Nat.testBit_log2 hbm

/-! ### The interval of a byte's fields (41_codec_encode.md rule R48) -/

/-- The band of an exponent. -/
theorem log2_sub_seven_eq_iff {bm e : Nat} (hbm : 128 ≤ bm) :
    Nat.log2 bm - 7 = e ↔ 2 ^ (e + 7) ≤ bm ∧ bm < 2 ^ (e + 8) := by
  have hne : bm ≠ 0 := by omega
  have hlog : 7 ≤ Nat.log2 bm := (Nat.le_log2 hne).2 hbm
  rw [← Nat.log2_eq_iff hne]
  omega

/-- The interval of an exponent and a mantissa: the leading one and the next four bits are `16 + m`. -/
theorem log2_and_mantissa_eq_iff {bm e m : Nat} (hbm : 128 ≤ bm) (hm : m < 16) :
    (Nat.log2 bm - 7 = e ∧ bm / 2 ^ (e + 3) % 16 = m) ↔
      (16 + m) * 2 ^ (e + 3) ≤ bm ∧ bm < (17 + m) * 2 ^ (e + 3) := by
  have hpos := Nat.two_pow_pos (e + 3)
  have hlow : 2 ^ (e + 7) = 16 * 2 ^ (e + 3) := by ring
  have hhigh : 2 ^ (e + 8) = 32 * 2 ^ (e + 3) := by ring
  rw [log2_sub_seven_eq_iff hbm, hlow, hhigh]
  simp only [← Nat.le_div_iff_mul_le hpos, ← Nat.div_lt_iff_lt_mul hpos]
  omega

theorem muFields_eq_iff (f g : MuFields) :
    f = g ↔ f.sign = g.sign ∧ f.exponent.toNat = g.exponent.toNat ∧ f.mantissa.toNat = g.mantissa.toNat := by
  cases f
  cases g
  simp only [MuFields.mk.injEq, BitVec.toNat_inj]

/-- The samples whose byte has given fields. -/
theorem encodeFields_eq_iff (x : Sample) (f : MuFields) :
    encodeFields x = f ↔
      f.sign = decide (x.toInt < 0) ∧
      (16 + f.mantissa.toNat) * 2 ^ (f.exponent.toNat + 3) ≤ encodeBiased x ∧
      encodeBiased x < (17 + f.mantissa.toNat) * 2 ^ (f.exponent.toNat + 3) := by
  have hbm : 128 ≤ encodeBiased x := Nat.le_trans (by decide) (le_encodeBiased x)
  rw [← log2_and_mantissa_eq_iff hbm f.mantissa.isLt, muFields_eq_iff, encodeFields_sign, encodeFields_exponent_toNat,
    encodeFields_mantissa_toNat, eq_comm (a := decide _)]
  refine and_congr_right fun _ => and_congr_right fun hexp => ?_
  rw [hexp]

/-- A sample's biased magnitude lies in the interval of its byte's fields. -/
theorem encodeBiased_mem_interval (x : Sample) :
    (16 + (encodeFields x).mantissa.toNat) * 2 ^ ((encodeFields x).exponent.toNat + 3) ≤ encodeBiased x ∧
    encodeBiased x < (17 + (encodeFields x).mantissa.toNat) * 2 ^ ((encodeFields x).exponent.toNat + 3) :=
  ((encodeFields_eq_iff x _).1 rfl).2

theorem encodeFields_exponent_eq_iff (x : Sample) (e : BitVec 3) :
    (encodeFields x).exponent = e ↔ 2 ^ (e.toNat + 7) ≤ encodeBiased x ∧ encodeBiased x < 2 ^ (e.toNat + 8) := by
  rw [← log2_sub_seven_eq_iff (Nat.le_trans (by decide) (le_encodeBiased x)), ← encodeFields_exponent_toNat,
    BitVec.toNat_inj]

/-- Codes do not decrease with the biased magnitude: a smaller code's interval would end below the larger's. -/
theorem code_le_of_encodeBiased_le {x y : Sample} (h : encodeBiased x ≤ encodeBiased y) :
    16 * (encodeFields x).exponent.toNat + (encodeFields x).mantissa.toNat ≤
      16 * (encodeFields y).exponent.toNat + (encodeFields y).mantissa.toNat := by
  by_contra hlt
  have hle := interval_end_le_of_code_lt (encodeFields y).mantissa.isLt (encodeFields x).mantissa.isLt
    (Nat.lt_of_not_le hlt)
  obtain ⟨hbottom, -⟩ := encodeBiased_mem_interval x
  obtain ⟨-, htop⟩ := encodeBiased_mem_interval y
  omega

/-- Settles O36: the fields are those of the interval that holds the biased magnitude, and the intervals are in order. -/
theorem encodeIntervalsAndOrder : Obligations.EncodeIntervalsAndOrder := by
  simp only [Obligations.EncodeIntervalsAndOrder, muOut_eq, fieldsOfWire_muEncode, ← encodeBiased_eq]
  refine ⟨encodeFields_eq_iff, encodeFields_exponent_eq_iff, fun x₁ x₂ hpos hle => code_le_of_encodeBiased_le ?_⟩
  rw [encodeBiased_eq, encodeBiased_eq]
  omega

/-! ### DECODE of ENCODE (41_codec_encode.md rule R49) -/

/-- The magnitude that comes back for a sample. -/
def roundTripMagnitude (x : Sample) : Nat :=
  decodeMagnitude (encodeFields x).exponent.toNat (encodeFields x).mantissa.toNat

/-- The sample that comes back has the magnitude of its fields and the sample's sign. -/
theorem muDecode_muEncode_toInt (x : Sample) :
    (muDecode (muEncode x)).toInt = if x.toInt < 0 then -(roundTripMagnitude x : Int) else roundTripMagnitude x := by
  rw [muDecode_toInt, fieldsOfWire_muEncode, decodeValue_eq, encodeFields_sign]
  simp only [decide_eq_true_eq]
  rfl

/-- The error is that of the magnitude, since the sign is kept. -/
theorem roundTrip_error (x : Sample) :
    ((muDecode (muEncode x)).toInt - x.toInt).natAbs = ((roundTripMagnitude x : Int) - x.toInt.natAbs).natAbs := by
  rw [muDecode_muEncode_toInt]
  split <;> omega

/-- A magnitude that is not clamped comes back within half a step: it lies in the interval of which the magnitude that
comes back is the middle. -/
theorem roundTrip_error_le {x : Sample} (h : x.toInt.natAbs ≤ 32635) :
    ((muDecode (muEncode x)).toInt - x.toInt).natAbs ≤ 2 ^ ((encodeFields x).exponent.toNat + 2) := by
  have hbottom := decodeMagnitude_add_bias_eq_bottom (encodeFields x).exponent.toNat (encodeFields x).mantissa.isLt
  have htop := decodeMagnitude_add_bias_eq_top (encodeFields x).exponent.toNat (encodeFields x).mantissa.isLt
  obtain ⟨hge, hlt⟩ := encodeBiased_mem_interval x
  rw [encodeBiased_eq, Nat.min_eq_left h] at hge hlt
  rw [roundTrip_error, roundTripMagnitude]
  omega

/-- Both clamped bytes are of segment 7. -/
theorem encodeFields_exponent_of_clip_le {x : Sample} (h : 32635 ≤ x.toInt.natAbs) :
    (encodeFields x).exponent.toNat = 7 := by
  rw [← fieldsOfWire_muEncode, muEncode_of_clip_le h]
  split <;> decide

/-- Every clamped magnitude comes back as the largest one. -/
theorem roundTripMagnitude_of_clip_le {x : Sample} (h : 32635 ≤ x.toInt.natAbs) : roundTripMagnitude x = 32124 := by
  have hmag : decodeMagnitude (fieldsOfWire (muEncode x)).exponent.toNat (fieldsOfWire (muEncode x)).mantissa.toNat =
      32124 := by
    rw [muEncode_of_clip_le h]
    split <;> decide
  rwa [fieldsOfWire_muEncode] at hmag

/-- The samples in the first interval come back as 0. -/
theorem roundTripMagnitude_of_le_three {x : Sample} (h : x.toInt.natAbs ≤ 3) : roundTripMagnitude x = 0 := by
  have hfields : encodeFields x = { sign := decide (x.toInt < 0), exponent := 0, mantissa := 0 } := by
    refine (encodeFields_eq_iff x _).2 ⟨rfl, ?_⟩
    have hfirst : 128 ≤ encodeBiased x ∧ encodeBiased x < 136 := by
      rw [encodeBiased_eq]
      omega
    exact hfirst
  rw [roundTripMagnitude, hfields]
  exact show decodeMagnitude 0 0 = 0 by decide

/-- The error is below a step for every sample, clamped or not. -/
theorem roundTrip_error_lt (x : Sample) :
    ((muDecode (muEncode x)).toInt - x.toInt).natAbs < 2 ^ ((encodeFields x).exponent.toNat + 3) := by
  by_cases h : x.toInt.natAbs ≤ 32635
  · exact (roundTrip_error_le h).trans_lt (Nat.pow_lt_pow_right (by decide) (Nat.lt_succ_self _))
  · have hclip : 32635 ≤ x.toInt.natAbs := by omega
    have hlow := BitVec.le_toInt x
    have hhigh := BitVec.toInt_lt (x := x)
    rw [roundTrip_error, roundTripMagnitude_of_clip_le hclip, encodeFields_exponent_of_clip_le hclip]
    norm_num at hlow hhigh
    omega

/-- The bottom of an interval has that interval's fields and errs by exactly half a step. -/
theorem roundTrip_of_interval_bottom {e m : Nat} (he : e < 8) (hm : m < 16) {x : Sample}
    (hx : x.toInt.natAbs + 132 = (16 + m) * 2 ^ (e + 3)) :
    (encodeFields x).exponent.toNat = e ∧ (encodeFields x).mantissa.toNat = m ∧
      ((muDecode (muEncode x)).toInt - x.toInt).natAbs = 2 ^ (e + 2) := by
  have hclip : x.toInt.natAbs ≤ 32635 := by
    have hle : (16 + m) * 2 ^ (e + 3) ≤ 31 * 2 ^ 10 :=
      Nat.mul_le_mul (by omega) (Nat.pow_le_pow_right (by decide) (by omega))
    omega
  have hbm : encodeBiased x = (16 + m) * 2 ^ (e + 3) := by rw [encodeBiased_eq, Nat.min_eq_left hclip, hx]
  have hfields : Nat.log2 (encodeBiased x) - 7 = e ∧ encodeBiased x / 2 ^ (e + 3) % 16 = m := by
    refine (log2_and_mantissa_eq_iff (Nat.le_trans (by decide) (le_encodeBiased x)) hm).2 ⟨hbm.ge, ?_⟩
    rw [hbm]
    exact Nat.mul_lt_mul_of_pos_right (by omega) (Nat.two_pow_pos _)
  obtain ⟨hexp, hman⟩ := hfields
  have he' : (encodeFields x).exponent.toNat = e := (encodeFields_exponent_toNat x).trans hexp
  have hm' : (encodeFields x).mantissa.toNat = m := by rw [encodeFields_mantissa_toNat, hexp, hman]
  refine ⟨he', hm', ?_⟩
  have hmid : decodeMagnitude e m = x.toInt.natAbs + 2 ^ (e + 2) := by
    have := decodeMagnitude_add_bias_eq_bottom e hm
    omega
  rw [roundTrip_error, roundTripMagnitude, he', hm', hmid, Nat.cast_add, add_sub_cancel_left, Int.natAbs_natCast]

/-- Settles O37: the sign is kept and the magnitude that comes back is the middle of the interval, so that the error is
that of the magnitude. -/
theorem roundTripThroughTheByteStaysWithinAStep : Obligations.RoundTripThroughTheByteStaysWithinAStep := by
  simp only [Obligations.RoundTripThroughTheByteStaysWithinAStep, muOut_eq, linOut_eq, fieldsOfWire_muEncode]
  refine ⟨fun x => ⟨roundTrip_error_le, fun h => ?_, fun h => ?_, roundTrip_error_lt x, ?_, fun h => ?_⟩,
    fun e he m hm _ x hx => roundTrip_of_interval_bottom he hm hx⟩
  · have hmag := roundTripMagnitude_of_clip_le (x := x) (by omega)
    rw [muDecode_muEncode_toInt, hmag, if_neg (by omega)]
    omega
  · have hmag := roundTripMagnitude_of_clip_le (x := x) (by omega)
    rw [muDecode_muEncode_toInt, hmag, if_pos (by omega)]
    omega
  · rw [muDecode_muEncode_toInt]
    by_cases hzero : x.toInt = 0
    · rw [roundTripMagnitude_of_le_three (by omega)]
      simp
    · split <;> omega
  · rw [muDecode_muEncode_toInt, roundTripMagnitude_of_le_three h]
    simp

/-! ### ENCODE of DECODE (41_codec_encode.md rule R50) -/

/-- The fields of a byte come back from its sample where the sample's sign is the field's: its magnitude is the middle
of the fields' interval. -/
theorem encodeFields_muDecode {b : Byte} (hsign : (fieldsOfWire b).sign = decide ((muDecode b).toInt < 0)) :
    encodeFields (muDecode b) = fieldsOfWire b := by
  refine (encodeFields_eq_iff _ _).2 ⟨hsign, ?_⟩
  have hbottom := decodeMagnitude_add_bias_eq_bottom (fieldsOfWire b).exponent.toNat (fieldsOfWire b).mantissa.isLt
  have htop := decodeMagnitude_add_bias_eq_top (fieldsOfWire b).exponent.toNat (fieldsOfWire b).mantissa.isLt
  have hle := decodeValue_natAbs_le (fieldsOfWire b)
  have hpos := Nat.two_pow_pos ((fieldsOfWire b).exponent.toNat + 2)
  rw [encodeBiased_eq, muDecode_toInt, Nat.min_eq_left (by omega), decodeValue_natAbs]
  omega

/-- The sign of a byte is that of its sample, but for the negated zero. -/
theorem fieldsOfWire_sign_eq_of_ne {b : Byte} (hb : b ≠ 0x7F) :
    (fieldsOfWire b).sign = decide ((muDecode b).toInt < 0) := by
  rcases Nat.lt_or_ge b.toNat 0x80 with hlt | hge
  · have hpos : wireMagnitude b ≠ 0 := fun hzero => by
      rcases wireMagnitude_eq_zero hzero with rfl | rfl
      · exact absurd hlt (by decide)
      · exact hb rfl
    rw [(fieldsOfWire_sign_eq_true_iff b).2 hlt, muDecode_toInt_of_lt hlt, eq_comm, decide_eq_true_iff]
    omega
  · rw [(fieldsOfWire_sign_eq_false_iff b).2 hge, muDecode_toInt_of_ge hge, eq_comm, decide_eq_false_iff_not]
    omega

theorem muEncode_muDecode {b : Byte} (hb : b ≠ 0x7F) : muEncode (muDecode b) = b := by
  rw [muEncode, encodeFields_muDecode (fieldsOfWire_sign_eq_of_ne hb), wireOfFields_fieldsOfWire]

theorem muEncode_eq_iff_encodeFields_eq (x : Sample) (b : Byte) : muEncode x = b ↔ encodeFields x = fieldsOfWire b := by
  constructor
  · rintro rfl
    exact (fieldsOfWire_muEncode x).symm
  · intro h
    rw [muEncode, h, wireOfFields_fieldsOfWire]

/-- The negated zero is the byte of the negative samples in the first interval. -/
theorem muEncode_eq_0x7F_iff (x : Sample) : muEncode x = 0x7F ↔ x.toInt = -1 ∨ x.toInt = -2 ∨ x.toInt = -3 := by
  have hfields : fieldsOfWire 0x7F = { sign := true, exponent := 0, mantissa := 0 } := by decide
  have hinterval : encodeFields x = fieldsOfWire 0x7F ↔
      true = decide (x.toInt < 0) ∧ 128 ≤ encodeBiased x ∧ encodeBiased x < 136 := by
    rw [hfields]
    exact encodeFields_eq_iff x _
  rw [muEncode_eq_iff_encodeFields_eq, hinterval, encodeBiased_eq, eq_comm, decide_eq_true_iff]
  omega

/-- Settles O38: every byte but 0x7F is the code of its own sample, and 0x7F is that of −1. -/
theorem roundTripThroughTheSampleKeepsEveryByteBut0x7F :
    Obligations.RoundTripThroughTheSampleKeepsEveryByteBut0x7F := by
  refine ⟨fun b => muEncode_muDecode, by decide, muEncode_eq_0x7F_iff, fun b => ?_⟩
  by_cases hb : b = 0x7F
  · exact ⟨u16 (-1), by rw [hb]; decide⟩
  · exact ⟨muDecode b, muEncode_muDecode hb⟩

end Sys2Proof.Machine

namespace Sys2Proof.Machine

/-! ### Failure, the skipped bytes and the ignored byte (43_pipeline_host.md rules R59 to R63, R67) -/

/-- When G711_TO_PCM fails, and how (R67). -/
theorem g711ToPcm_eq_fault_iff {rate : Word32} {buf : List Byte} {r : Fault} :
    g711ToPcm rate buf = .fault r ↔ buf.length < 46 ∧ r = .truncatedInputError buf.length := by
  rcases g711ToPcm_cases rate buf with ⟨hshort, h, -⟩ | ⟨hlen, -, h, -⟩ | ⟨hlen, -, -, h⟩
  · rw [h, Host.Outcome.fault.injEq]
    exact ⟨fun hr => ⟨hshort, hr.symm⟩, fun ⟨_, hr⟩ => hr.symm⟩
  · rw [h]
    exact ⟨nofun, fun ⟨hshort, _⟩ => absurd hshort hlen.not_gt⟩
  · rw [h]
    exact ⟨nofun, fun ⟨hshort, _⟩ => absurd hshort hlen.not_gt⟩

/-- Settles O47: the length check is the only failure of G711_TO_PCM, it comes before any command, and PCM_TO_G711 makes
no such check. -/
theorem truncatedInputIsTheOnlyFailure : Obligations.TruncatedInputIsTheOnlyFailure := by
  refine ⟨fun _ _ _ => g711ToPcm_eq_fault_iff, fun buf hshort => ?_, fun buf factor r => ?_⟩
  · rcases g711ToPcm_cases 0 buf with ⟨-, -, h⟩ | ⟨hlen, -⟩ | ⟨hlen, -⟩
    · exact h
    · exact absurd hshort hlen.not_gt
    · exact absurd hshort hlen.not_gt
  · rcases pcmToG711_cases buf factor with ⟨-, h⟩ | ⟨-, -, h, -⟩ | ⟨-, -, h⟩ <;> rw [h] <;> nofun

/-- Settles O51: STRIP gives the same bytes for both buffers, and G711_TO_PCM reads nothing else. -/
theorem vendorPrefixInfluencesNothing : Obligations.VendorPrefixInfluencesNothing := by
  intro rate p q rest hp hq
  obtain ⟨-, hskip, -⟩ := stripSkips46BytesOrFails
  simp only [g711ToPcm, hskip p rest hp, hskip q rest hq]

/-- PCM_TO_G711 reads its buffer as samples only. -/
theorem pcmToG711_congr {buf buf' : List Byte} (h : samplesOf buf = samplesOf buf') (factor : Nat) :
    pcmToG711 buf factor = pcmToG711 buf' factor := by
  simp only [pcmToG711, h]

/-- Settles O50: the odd last byte is part of no sample. -/
theorem oddLastByteIsIgnored : Obligations.OddLastByteIsIgnored := by
  intro buf last factor heven
  have hsame := pcmToG711_congr (samplesOf_append_odd buf last heven) factor
  refine ⟨hsame, fun hf hfit => ?_⟩
  rw [hsame]
  exact ⟨_, pcmToG711_eq_next_iff.2 ⟨hf, by rwa [decimate_samplesOf_length hf], rfl⟩⟩

/-! ### The output of G711_TO_PCM by offset (43_pipeline_host.md rule R60) -/

/-- Samples take two bytes each. -/
theorem flatMap_le16_length (f : Byte → Sample) (xs : List Byte) :
    (xs.flatMap fun b => le16 (f b)).length = 2 * xs.length := by
  simp only [List.length_flatMap, le16_length, List.map_const', List.sum_replicate, smul_eq_mul, Nat.mul_comm]

theorem pcmFile_length (rate : Word32) (rest : List Byte) : (pcmFile rate rest).length = 46 + 2 * rest.length := by
  rw [pcmFile, List.length_append, frame_toList_length, flatMap_le16_length]

theorem pcmFile_take (rate : Word32) (rest : List Byte) :
    (pcmFile rate rest).take 46 = (hdrPcmFrame rate (trunc32 (2 * rest.length))).toList :=
  List.take_left' (frame_toList_length _)

/-- Settles O48: the file of the stripped bytes has the stated length, frame and samples. -/
theorem g711ToPcmOutputByOffset : Obligations.G711ToPcmOutputByOffset := by
  refine ⟨fun rate buf hshort => g711ToPcm_eq_fault_iff.2 ⟨hshort, rfl⟩, fun rate buf hlen hfit => ?_⟩
  refine ⟨pcmFile rate (buf.drop 46), g711ToPcm_eq_next_iff.2 ⟨hlen, hfit, rfl⟩, ?_, ?_, fun i b hb => ?_⟩
  · rw [pcmFile_length, List.length_drop]
  · rw [pcmFile_take, List.length_drop, frameOut_false, trunc32]
  · obtain ⟨hlow, hhigh⟩ := pcmFile_drop_getElem? rate buf i
    rw [hlow, hhigh, hb]
    exact ⟨rfl, rfl⟩

/-! ### The procedures as commands run on the block (30_encoding.md rule R38) -/

/-- The ports' answer to an operation's word is the transaction of that operation. -/
theorem answer_encode (rate : Word32) (i : Instr) :
    answer rate (encode i) = { command := i, result := resultOf rate i } := by
  rw [answer, wrapperResult_encode, decodeOfEncodeIsTheInstruction]

/-- Presenting the words of some commands completes and logs these commands with their results, in order. -/
theorem runSteps_encode (s : State) (cmds : List Instr) :
    ∃ (t : State) (new : List Transaction),
      runSteps cmds.length (s.withCommands (cmds.map encode)) = .next t ∧
      t.log = s.log ++ new ∧ new.map Transaction.command = cmds ∧
      new.flatMap (fun a => a.result.bytes) = cmds.flatMap (fun i => (resultOf s.pcmSampleRate i).bytes) := by
  have hrun := runSteps_withCommands (cmds.map encode) s
  rw [List.length_map, List.map_map,
    show answer s.pcmSampleRate ∘ encode = fun i => { command := i, result := resultOf s.pcmSampleRate i } from
      funext (answer_encode _)] at hrun
  refine ⟨_, _, hrun, rfl, ?_, ?_⟩
  · rw [List.map_map]
    exact List.map_id' _
  · rw [List.flatMap_map]

/-- A PCM file is the bytes of its commands' results, in order. -/
theorem pcmFile_eq_flatMap (rate : Word32) (rest : List Byte) :
    pcmFile rate rest =
      (Instr.hdrPcm (trunc32 (2 * rest.length)) :: rest.map Instr.decode).flatMap
        (fun i => (resultOf rate i).bytes) := by
  rw [List.flatMap_cons, List.flatMap_map]
  rfl

/-- A G.711 file is the bytes of its commands' results, in order, at any rate. -/
theorem g711File_eq_flatMap (rate : Word32) (kept : List Sample) :
    g711File kept =
      (Instr.hdrG711 (trunc32 kept.length) :: kept.map Instr.encode).flatMap (fun i => (resultOf rate i).bytes) := by
  rw [List.flatMap_cons, List.flatMap_map, g711File, List.map_eq_flatMap]
  rfl

/-- Settles O53: the results of the commands are the parts of the PCM file. -/
theorem g711ToPcmIsItsCommandsRunOnTheBlock : Obligations.G711ToPcmIsItsCommandsRunOnTheBlock := by
  intro s buf out hout
  obtain ⟨hlen, hfit, hfile⟩ := g711ToPcm_eq_next_iff.1 hout
  refine ⟨?_, ?_⟩
  · rcases g711ToPcm_cases 0 buf with ⟨hshort, -⟩ | ⟨-, -, -, hcmds⟩ | ⟨-, hbig, -⟩
    · exact absurd hlen hshort.not_ge
    · exact hcmds
    · exact absurd hfit hbig.not_gt
  · rw [hfile, pcmFile_eq_flatMap, List.length_drop]
    exact runSteps_encode s _

/-- Settles O54: the results of the commands are the parts of the G.711 file. -/
theorem pcmToG711IsItsCommandsRunOnTheBlock : Obligations.PcmToG711IsItsCommandsRunOnTheBlock := by
  intro s buf out factor hout
  obtain ⟨hf, hfit, hfile⟩ := pcmToG711_eq_next_iff.1 hout
  refine ⟨?_, ?_⟩
  · rcases pcmToG711_cases buf factor with ⟨hzero, -⟩ | ⟨-, -, -, hcmds⟩ | ⟨-, hbig, -⟩
    · exact absurd hzero (Nat.ne_of_gt hf)
    · exact hcmds
    · exact absurd hfit hbig.not_gt
  · rw [hfile, g711File_eq_flatMap s.pcmSampleRate]
    exact runSteps_encode s _

/-! ### Well-formed files (70_reset_and_hazards.md rule R81) -/

/-- What follows a frame does not change what is read inside it. -/
theorem memRead_append_of_le {xs : List Byte} {addr n : Nat} (ys : List Byte) (h : addr + n ≤ xs.length) :
    memRead (xs ++ ys) addr n = memRead xs addr n := by
  rw [memRead_of_le h, memRead_of_le (by rw [List.length_append]; omega), List.drop_append_of_le_length (by omega),
    List.take_append_of_le_length (by rw [List.length_drop]; omega)]

/-- A frame of either variant before as many payload bytes as it counts, within the bound, describes its own file. -/
theorem wellFormedFile_frame_append (r n : Word32) (sel : Bool) {payload : List Byte}
    (hlen : payload.length = n.toNat) (hbound : PayloadInBounds payload.length) :
    WellFormedFile ((frameOut r sel n).toList ++ payload) := by
  have hfile : ((frameOut r sel n).toList ++ payload).length = 46 + n.toNat := by
    rw [List.length_append, frame_toList_length, hlen]
  have hmax : n.toNat ≤ 0xFFFFFFD9 := hlen ▸ hbound
  refine ⟨?_, ?_, ?_⟩
  · exact hfile ▸ Nat.le_add_right 46 n.toNat
  · rw [memRead_append_of_le payload (by rw [frame_toList_length]; decide), memRead_frameOut_chunkSize, hfile,
      Nat.mod_eq_of_lt (by omega)]
    congr 1
    omega
  · rw [memRead_append_of_le payload (by rw [frame_toList_length]), memRead_frameOut_dataSize, hfile,
      Nat.add_sub_cancel_left]

/-- A count within the bound is the value of the operand it is presented in. -/
theorem trunc32_toNat {count : Nat} (h : PayloadInBounds count) : (trunc32 count).toNat = count :=
  (BitVec.toNat_ofNat _ _).trans (Nat.mod_eq_of_lt (Nat.lt_of_le_of_lt h (by decide)))

theorem wellFormedFile_pcmFile (rate : Word32) {rest : List Byte} (h : PayloadInBounds (2 * rest.length)) :
    WellFormedFile (pcmFile rate rest) := by
  have hpayload := flatMap_le16_length muDecode rest
  rw [pcmFile, ← frameOut_false]
  exact wellFormedFile_frame_append rate _ false (hpayload.trans (trunc32_toNat h).symm) (hpayload ▸ h)

theorem wellFormedFile_g711File {kept : List Sample} (h : PayloadInBounds kept.length) :
    WellFormedFile (g711File kept) := by
  have hpayload : (kept.map muEncode).length = kept.length := List.length_map _
  rw [g711File, ← frameOut_true 0]
  exact wellFormedFile_frame_append 0 _ true (hpayload.trans (trunc32_toNat h).symm) (hpayload ▸ h)

/-- Settles O55: both files are a frame before as many bytes as it counts. -/
theorem outputFilesAreWellFormedWithinTheBound : Obligations.OutputFilesAreWellFormedWithinTheBound := by
  refine ⟨fun rate buf out hout hbound => ?_, fun buf out factor hout hbound => ?_⟩
  · obtain ⟨-, -, hfile⟩ := g711ToPcm_eq_next_iff.1 hout
    rw [← List.length_drop] at hbound
    exact hfile ▸ wellFormedFile_pcmFile rate hbound
  · obtain ⟨-, -, hfile⟩ := pcmToG711_eq_next_iff.1 hout
    rw [hfile, g711File_length, Nat.add_sub_cancel_left] at hbound
    exact hfile ▸ wellFormedFile_g711File hbound

/-! ### There and back (43_pipeline_host.md rules R60, R61) -/

theorem g711File_drop (kept : List Sample) : (g711File kept).drop 46 = kept.map muEncode :=
  List.drop_left' (frame_toList_length _)

/-- The samples of a PCM file after its frame are DECODE of the bytes it was made of. -/
theorem samplesOf_pcmFile_drop (rate : Word32) (rest : List Byte) :
    samplesOf ((pcmFile rate rest).drop 46) = rest.map muDecode := by
  rw [pcmFile, List.drop_left' (frame_toList_length _), ← samplesOf_flatMap_le16 (rest.map muDecode),
    List.flatMap_map]

/-- Settles O56: the frame before the encoded samples is what STRIP removes. -/
theorem thereAndBackReturnsEachSampleThroughTheCodec : Obligations.ThereAndBackReturnsEachSampleThroughTheCodec := by
  intro rate buf out hout hfit
  obtain ⟨-, -, hfile⟩ := pcmToG711_eq_next_iff.1 hout
  rw [decimate_one] at hfile
  have hlen : out.length = 46 + buf.length / 2 := by rw [hfile, g711File_length, samplesOf_length]
  refine ⟨_, g711ToPcm_eq_next_iff.2 ⟨by omega, by omega, rfl⟩, ?_⟩
  rw [samplesOf_pcmFile_drop, hfile, g711File_drop, List.map_map]
  rfl

end Sys2Proof.Machine

namespace Sys2Proof.Machine

/-! ### Digits written and read back (30_encoding.md rule R37) -/

/-- A digit of the base is read back from its character. -/
theorem charDigit_digitChar {base d : Nat} (hd : d < base) (hbase : base ≤ 16) :
    charDigit base (digitChar d) = some d := by
  have hidx : ∀ k, k < 16 → digitTable.idxOf (digitTable.getD (k % 16) '0') = k := by decide
  simp only [charDigit, digitChar, hidx d (hd.trans_le hbase), if_pos hd]

/-- No digit is one of the two characters that mark a hexadecimal or a negative operand. -/
theorem digitChar_ne_mark (d : Nat) : digitChar d ≠ 'x' ∧ digitChar d ≠ '-' := by
  have hall : ∀ k, k < 16 → digitTable.getD k '0' ≠ 'x' ∧ digitTable.getD k '0' ≠ '-' := by decide
  exact hall (d % 16) (Nat.mod_lt _ (by decide))

/-- Reading one more digit on the right. -/
theorem digitsValue_append_digit {base d : Nat} (hd : d < base) (hbase : base ≤ 16) :
    ∀ (cs : List Char) {acc v : Nat}, digitsValue base acc cs = some v →
      digitsValue base acc (cs ++ [digitChar d]) = some (base * v + d)
  | [], acc, v, h => by
    rw [digitsValue, Option.some.injEq] at h
    simp only [List.nil_append, digitsValue, charDigit_digitChar hd hbase, h]
  | c :: cs, acc, v, h => by
    rw [digitsValue] at h
    rw [List.cons_append, digitsValue]
    split at h
    · exact digitsValue_append_digit hd hbase cs h
    · cases h

/-- A number that fits its hexadecimal digits is read back from them. -/
theorem digitsValue_hexChars : ∀ (digits v : Nat), v < 16 ^ digits → digitsValue 16 0 (hexChars digits v) = some v
  | 0, v, h => congrArg some (Nat.lt_one_iff.1 h).symm
  | digits + 1, v, h => by
    have hhigh : v / 16 < 16 ^ digits := Nat.div_lt_of_lt_mul (by rwa [← Nat.pow_succ'])
    rw [hexChars, digitsValue_append_digit (Nat.mod_lt v (by decide)) (Nat.le_refl 16) _
      (digitsValue_hexChars digits (v / 16) hhigh), Nat.div_add_mod]

theorem hexChars_length : ∀ digits v : Nat, (hexChars digits v).length = digits
  | 0, _ => rfl
  | digits + 1, v => by rw [hexChars, List.length_append, hexChars_length digits, List.length_singleton]

/-- A number of at most `fuel` decimal digits is read back from them. -/
theorem digitsValue_decimalChars : ∀ (fuel v : Nat), v < 10 ^ fuel → digitsValue 10 0 (decimalChars fuel v) = some v
  | 0, v, h => congrArg some (Nat.lt_one_iff.1 h).symm
  | fuel + 1, v, h => by
    rw [decimalChars]
    split
    next hone =>
      exact (digitsValue_append_digit hone (by decide) [] rfl).trans (congrArg some (by omega))
    next =>
      have hhigh : v / 10 < 10 ^ fuel := Nat.div_lt_of_lt_mul (by rwa [← Nat.pow_succ'])
      rw [digitsValue_append_digit (Nat.mod_lt v (by decide)) (by decide) _
        (digitsValue_decimalChars fuel (v / 10) hhigh), Nat.div_add_mod]

/-- A decimal is made of digits, so it holds neither mark. -/
theorem ne_mark_of_mem_decimalChars {c : Char} : ∀ {fuel v : Nat}, c ∈ decimalChars fuel v → c ≠ 'x' ∧ c ≠ '-'
  | fuel + 1, v, h => by
    rw [decimalChars] at h
    split at h
    · rw [List.mem_singleton.1 h]
      exact digitChar_ne_mark v
    · rcases List.mem_append.1 h with hhigh | hlow
      · exact ne_mark_of_mem_decimalChars hhigh
      · rw [List.mem_singleton.1 hlow]
        exact digitChar_ne_mark _

theorem natChars_ne_nil (v : Nat) : natChars v ≠ [] := by
  rw [natChars, decimalChars]
  split
  · exact List.cons_ne_nil _ _
  · exact List.append_ne_nil_of_right_ne_nil _ (List.cons_ne_nil _ _)

theorem parseNat_natChars {v : Nat} (h : v < 10 ^ 10) : parseNat (natChars v) = some v := by
  rw [parseNat, if_neg (by simpa using natChars_ne_nil v)]
  exact digitsValue_decimalChars 10 v h

/-! ### Operands written and read back -/

/-- The operands whose written form holds their whole value: hexadecimals that fit their digits, and decimals of at most
ten digits. -/
def NumeralFits : Numeral → Prop
  | .decimal v => v.natAbs < 10 ^ 10
  | .hex digits v => v < 16 ^ digits

/-- A text without a mark is read as an unsigned decimal. -/
theorem parseNumeral_of_no_mark {cs : List Char} {v : Nat} (hmark : ∀ c ∈ cs, c ≠ 'x' ∧ c ≠ '-')
    (hv : parseNat cs = some v) : parseNumeral cs = some (.decimal v) := by
  unfold parseNumeral
  split
  · exact absurd rfl (hmark 'x' (by simp)).1
  · exact absurd rfl (hmark '-' (by simp)).2
  · rw [hv]
    rfl

/-- A minus sign negates the unsigned decimal after it. -/
theorem parseNumeral_minus {cs : List Char} {v : Nat} (hv : parseNat cs = some v) :
    parseNumeral ('-' :: cs) = some (.decimal (-(v : Int))) := by
  rw [parseNumeral, hv]
  rfl

theorem parseNumeral_intChars {v : Int} (h : v.natAbs < 10 ^ 10) : parseNumeral (intChars v) = some (.decimal v) := by
  rw [intChars]
  split
  next hneg =>
    rw [parseNumeral_minus (parseNat_natChars h), show -(v.natAbs : Int) = v by omega]
  next hpos =>
    have hmark : ∀ c ∈ natChars v.natAbs, c ≠ 'x' ∧ c ≠ '-' := fun _ => ne_mark_of_mem_decimalChars
    rw [parseNumeral_of_no_mark hmark (parseNat_natChars h), show (v.natAbs : Int) = v by omega]

theorem parseNumeral_numeralText {n : Numeral} (h : NumeralFits n) : parseNumeral (numeralText n) = some n := by
  cases n with
  | decimal v => exact parseNumeral_intChars h
  | hex digits v =>
    rw [numeralText, List.cons_append, List.cons_append, List.nil_append, parseNumeral, digitsValue_hexChars digits v h,
      Option.map_some, hexChars_length]

/-! ### Lines written and read back -/

theorem numeralFits_of_wellFormedByte {n : Numeral} (h : wellFormedByte n = true) : NumeralFits n := by
  cases n with
  | decimal v => cases h
  | hex digits v =>
    simp only [wellFormedByte, Bool.and_eq_true, beq_iff_eq, decide_eq_true_eq] at h
    obtain ⟨rfl, hv⟩ := h
    exact hv

theorem numeralFits_of_wellFormedSample {n : Numeral} (h : wellFormedSample n = true) : NumeralFits n := by
  cases n with
  | decimal v =>
    simp only [wellFormedSample, Bool.and_eq_true, decide_eq_true_eq] at h
    show v.natAbs < 10 ^ 10
    omega
  | hex digits v =>
    simp only [wellFormedSample, Bool.and_eq_true, beq_iff_eq, decide_eq_true_eq] at h
    obtain ⟨rfl, hv⟩ := h
    exact hv

theorem numeralFits_of_wellFormedCount {n : Numeral} (h : wellFormedCount n = true) : NumeralFits n := by
  cases n with
  | decimal v =>
    simp only [wellFormedCount, Bool.and_eq_true, decide_eq_true_eq] at h
    show v.natAbs < 10 ^ 10
    omega
  | hex digits v =>
    simp only [wellFormedCount, Bool.and_eq_true, beq_iff_eq, decide_eq_true_eq] at h
    obtain ⟨rfl, hv⟩ := h
    exact hv

theorem numeralFits_of_wellFormed {l : SourceLine} (h : l.wellFormed = true) : NumeralFits l.operand := by
  obtain ⟨m, n⟩ := l
  cases m with
  | decode => exact numeralFits_of_wellFormedByte h
  | encode => exact numeralFits_of_wellFormedSample h
  | hdrPcm => exact numeralFits_of_wellFormedCount h
  | hdrG711 => exact numeralFits_of_wellFormedCount h

/-- A line begins with its own mnemonic and a space, and with no other mnemonic and a space. -/
theorem dropPrefix_mnemonicText (m m' : Mnemonic) (cs : List Char) :
    dropPrefix (mnemonicText m ++ [' ']) (mnemonicText m' ++ [' '] ++ cs) = if m = m' then some cs else none := by
  cases m <;> cases m' <;> rfl

/-- A written line is the line of its own mnemonic and of no other. -/
theorem parseLineAs_lineText {l : SourceLine} (h : NumeralFits l.operand) (m : Mnemonic) :
    parseLineAs m (lineText l) = if m = l.mnemonic then some l else none := by
  rw [parseLineAs, lineText, dropPrefix_mnemonicText]
  by_cases hm : m = l.mnemonic
  · subst hm
    simp only [↓reduceIte, parseNumeral_numeralText h, Option.map_some]
  · simp only [if_neg hm]

/-- Settles O57: only the line's own mnemonic matches, and a well-formed operand is read back. -/
theorem writtenLineIsReadBack : Obligations.WrittenLineIsReadBack := by
  intro l hwf
  have hfound := parseLineAs_lineText (numeralFits_of_wellFormed hwf)
  have hor : (parseLineAs .decode (lineText l)).or ((parseLineAs .encode (lineText l)).or
      ((parseLineAs .hdrPcm (lineText l)).or (parseLineAs .hdrG711 (lineText l)))) = some l := by
    simp only [hfound]
    cases l.mnemonic <;> rfl
  simp only [parseLine, hor, if_pos hwf]

/-! ### Operations and their lines -/

/-- A pattern is that of its unsigned value. -/
theorem ofInt_toNat {w : Nat} (b : BitVec w) : BitVec.ofInt w (b.toNat : Int) = b := by
  rw [BitVec.ofInt_natCast, BitVec.ofNat_toNat, BitVec.setWidth_eq]

/-- A sample's value is in the range a signed decimal may have. -/
theorem wellFormed_encode_decimal (x : Sample) : (SourceLine.mk .encode (.decimal x.toInt)).wellFormed = true := by
  have hlow := BitVec.le_toInt x
  have hhigh := BitVec.toInt_lt (x := x)
  norm_num at hlow hhigh
  simp only [SourceLine.wellFormed, wellFormedSample, Bool.and_eq_true, decide_eq_true_eq]
  omega

theorem wellFormedCount_toNat (n : Word32) : wellFormedCount (.decimal n.toNat) = true := by
  have hlt := n.isLt
  simp only [wellFormedCount, Bool.and_eq_true, decide_eq_true_eq]
  omega

theorem disassemble_wellFormed (i : Instr) : (disassemble i).wellFormed = true := by
  cases i with
  | decode b =>
    simp only [disassemble, SourceLine.wellFormed, wellFormedByte, beq_self_eq_true, Bool.true_and, decide_eq_true_eq]
    exact b.isLt
  | encode x => exact wellFormed_encode_decimal x
  | hdrPcm n => exact wellFormedCount_toNat n
  | hdrG711 n => exact wellFormedCount_toNat n

/-- The signed decimal of a sample assembles to its ENCODE. -/
theorem assemble_encode_decimal (x : Sample) : assemble ⟨.encode, .decimal x.toInt⟩ = some (.encode x) := by
  rw [assemble, if_pos (wellFormed_encode_decimal x)]
  exact congrArg (fun y => some (Instr.encode y)) BitVec.ofInt_toInt

/-- The four hexadecimal digits of a sample's pattern assemble to its ENCODE. -/
theorem assemble_encode_hex (x : Sample) : assemble ⟨.encode, .hex 4 x.toNat⟩ = some (.encode x) := by
  have hwf : (SourceLine.mk .encode (.hex 4 x.toNat)).wellFormed = true := by
    simp only [SourceLine.wellFormed, wellFormedSample, beq_self_eq_true, Bool.true_and, decide_eq_true_eq]
    exact x.isLt
  rw [assemble, if_pos hwf]
  exact congrArg (fun y => some (Instr.encode y)) (ofInt_toNat x)

theorem assemble_disassemble (i : Instr) : assemble (disassemble i) = some i := by
  cases i with
  | encode x => exact assemble_encode_decimal x
  | decode b =>
    rw [assemble, if_pos (disassemble_wellFormed _)]
    exact congrArg (fun y => some (Instr.decode y)) (ofInt_toNat b)
  | hdrPcm n =>
    rw [assemble, if_pos (disassemble_wellFormed _)]
    exact congrArg (fun y => some (Instr.hdrPcm y)) (ofInt_toNat n)
  | hdrG711 n =>
    rw [assemble, if_pos (disassemble_wellFormed _)]
    exact congrArg (fun y => some (Instr.hdrG711 y)) (ofInt_toNat n)

/-- Settles O58: each operand is in the range of its written form, whose value has the operand's pattern. -/
theorem everyInstructionHasALineAndSpellingsAgree : Obligations.EveryInstructionHasALineAndSpellingsAgree :=
  ⟨fun i => ⟨disassemble_wellFormed i, assemble_disassemble i⟩,
    fun x => ⟨assemble_encode_hex x, assemble_encode_decimal x⟩⟩

end Sys2Proof.Machine
